-- ==== Sys2Proof/Word.lean ====
section
/-! DEFINITION. The machine's words: registers and addresses, bytes, the wide accumulator, register
ids (00_scope.md R5, R7; 40_step_and_operands.md R111; 10_state.md R20). -/

namespace Sys2Proof

/-- A register value, an address, an instruction word: 32 bits (00_scope.md R5). -/
abbrev Word := BitVec 32

/-- A memory cell: 8 bits (10_state.md R33). -/
abbrev Byte := BitVec 8

/-- A value of the widened 64-bit accumulator (40_step_and_operands.md R111). -/
abbrev Wide := BitVec 64

/-- A register id, 0 to 15, selecting R0 to R15 (10_state.md R20). -/
abbrev RegId := Fin 16

end Sys2Proof
end

