-- ==== Sys2Proof/Config.lean ====
section
/-! DEFINITION. The open parameters of one machine (00_scope.md R6): the size of its memory, the number
of its putchar trap and the tables of its encoding. They are plain data and `State` carries them, so
that a statement about every state is a statement about every machine. The remaining parameter,
`TrapTable`, is a function and stands in Machine/Traps.lean as an opaque constant. The spec's own values
of the encoding tables stand in Decode.lean. -/

namespace Sys2Proof

/-- The name of an opcode, one for each row of the opcode map (30_encoding.md R66). -/
inductive Mnemonic where
  | hlt | nop | ret | bpt | clc | clv | clz | cln | sec | sev | sez | sen
  | jmp | jsr
  | mov | add | sub | cmp | mul | div | and | or | xor | lsl | lsr | asr
  | br | beq | bne | blt | bge | bgt | ble | bhi | blos | bcc | bcs | bmi | bpl | bvs | bvc
  | emt
  deriving DecidableEq, Repr

/-- All 42 of them. -/
def Mnemonic.all : List Mnemonic :=
  [.hlt, .nop, .ret, .bpt, .clc, .clv, .clz, .cln, .sec, .sev, .sez, .sen, .jmp, .jsr,
   .mov, .add, .sub, .cmp, .mul, .div, .and, .or, .xor, .lsl, .lsr, .asr,
   .br, .beq, .bne, .blt, .bge, .bgt, .ble, .bhi, .blos, .bcc, .bcs, .bmi, .bpl, .bvs, .bvc, .emt]

/-- `OPCODE_MAP`, field positions, size and mode codes (00_scope.md R6; 93_implementation_defined.md U2,
U15). The widths of the fields are no parameter: the source gives them (00_scope.md R5; 30_encoding.md
R61 to R63). A position is the number of the field's lowest bit. -/
structure Encoding where
  /-- The opcode map: each opcode byte with what it stands for (30_encoding.md R66). -/
  opcodes : List (Byte × Mnemonic)
  /-- The opcode field, 8 bits wide, in every layout (30_encoding.md R61). -/
  opLo : Nat
  /-- `sz`, 2 bits wide (30_encoding.md R62). -/
  szLo : Nat
  /-- `dm`, 2 bits wide (30_encoding.md R62). -/
  dmLo : Nat
  /-- `sm`, 2 bits wide (30_encoding.md R62). -/
  smLo : Nat
  /-- `dr`, 4 bits wide (30_encoding.md R62). -/
  drLo : Nat
  /-- `sr`, 4 bits wide (30_encoding.md R62). -/
  srLo : Nat
  /-- `d24`, 24 bits wide (30_encoding.md R63). -/
  d24Lo : Nat
  /-- The codes of the sizes 8, 16 and 32; the fourth code is reserved (30_encoding.md R67, R75). -/
  size8 : BitVec 2
  size16 : BitVec 2
  size32 : BitVec 2
  /-- The codes of the modes; all four are used (30_encoding.md R68). -/
  direct : BitVec 2
  indirect : BitVec 2
  autoInc : BitVec 2
  autoDec : BitVec 2
  deriving DecidableEq, Repr

/-- Fields, each a position and a width, that lie in a 32-bit word without overlap. -/
abbrev fieldsFit (fields : List (Nat × Nat)) : Prop :=
  (∀ f ∈ fields, f.1 + f.2 ≤ 32) ∧ fields.Pairwise fun f g => f.1 + f.2 ≤ g.1 ∨ g.1 + g.2 ≤ f.1

/-- The fields of layout OP (30_encoding.md R62). -/
def Encoding.opFields (e : Encoding) : List (Nat × Nat) :=
  [(e.opLo, 8), (e.szLo, 2), (e.dmLo, 2), (e.smLo, 2), (e.drLo, 4), (e.srLo, 4)]

/-- The fields of layout BT (30_encoding.md R63). -/
def Encoding.btFields (e : Encoding) : List (Nat × Nat) := [(e.opLo, 8), (e.d24Lo, 24)]

/-- The legal tables. DESIGN CHOICE (log entry 9), since the spec states no constraint: no opcode byte and
no mnemonic stands twice in the map and none of the 42 mnemonics is missing, the fields of each layout
fit, no two sizes and no two modes share a code. -/
abbrev Encoding.wf (e : Encoding) : Prop :=
  (e.opcodes.map Prod.fst).Nodup ∧ (e.opcodes.map Prod.snd).Nodup ∧
  (∀ m ∈ Mnemonic.all, m ∈ e.opcodes.map Prod.snd) ∧
  fieldsFit e.opFields ∧ fieldsFit e.btFields ∧
  [e.size8, e.size16, e.size32].Nodup ∧ [e.direct, e.indirect, e.autoInc, e.autoDec].Nodup

/-- The open parameters of a machine (00_scope.md R6). No instruction changes them. -/
structure Params where
  /-- `MEM_SIZE`: the bytes at addresses 0 to `memSize - 1` exist (10_state.md R33). -/
  memSize : Nat
  /-- `EMT_PUTCHAR`: the trap number that prints the low byte of R0 (46_trap_halt.md R210). -/
  emtPutchar : BitVec 24
  /-- The tables by which the machine decodes what it fetches (30_encoding.md R61 to R68). -/
  encoding : Encoding
  deriving DecidableEq, Repr

/-- The constraint on `MEM_SIZE`, a multiple of 4 with 4 <= MEM_SIZE <= 2^32 (00_scope.md R6), and that
the tables are an encoding (log entry 9). -/
abbrev Params.wf (p : Params) : Prop :=
  (p.memSize % 4 = 0 ∧ 4 ≤ p.memSize ∧ p.memSize ≤ 2 ^ 32) ∧ p.encoding.wf

end Sys2Proof
end

