-- ==== Sys2Proof/Syntax.lean ====
section
/-! DEFINITION. The instructions as syntax: one constructor for each of the 42 rows of
spec/opcode_table.json, in the table's order (30_encoding.md R65, R66). -/

namespace Sys2Proof

/-- Operand size: 8, 16 or 32 bits (30_encoding.md R67). The fourth code of the field is reserved
and no instruction has it (R75). -/
inductive Size where
  | b8
  | b16
  | b32
  deriving DecidableEq, Repr

/-- Addressing mode (30_encoding.md R68; 00_scope.md R11). -/
inductive Mode where
  /-- The operand is the register itself. -/
  | direct
  /-- The operand is the memory cell at the register's value. -/
  | indirect
  /-- Indirect, then the register is increased. -/
  | autoInc
  /-- The register is decreased, then Indirect. -/
  | autoDec
  deriving DecidableEq, Repr

/-- An operand: a mode field and a register field (30_encoding.md R62, R69). -/
structure Operand where
  mode : Mode
  reg : RegId
  deriving DecidableEq, Repr

/-- The instructions. `dst` is the pair (dm, dr), `src` the pair (sm, sr), `d` the field d24
(30_encoding.md R62, R63, R65, R79). -/
inductive Instr where
  /-- HLT: stop: outcome Halt (R212). -/
  | hlt
  /-- NOP: nothing (R213). -/
  | nop
  /-- RET: pc <- pop (R182). -/
  | ret
  /-- BPT: outcome Breakpoint (R211). -/
  | bpt
  /-- CLC: C <- 0 (R170). -/
  | clc
  /-- CLV: V <- 0 (R171). -/
  | clv
  /-- CLZ: Z <- 0 (R172). -/
  | clz
  /-- CLN: N <- 0 (R173). -/
  | cln
  /-- SEC: C <- 1 (R174). -/
  | sec
  /-- SEV: V <- 1 (R175). -/
  | sev
  /-- SEZ: Z <- 1 (R176). -/
  | sez
  /-- SEN: N <- 1 (R177). -/
  | sen
  /-- JMP: pc <- operand (R180). -/
  | jmp (sz : Size) (src : Operand)
  /-- JSR: push pc; pc <- operand (R181). -/
  | jsr (sz : Size) (src : Operand)
  /-- MOV: dst <- src (R130). -/
  | mov (sz : Size) (dst src : Operand)
  /-- ADD: dst <- dst + src (R131). -/
  | add (sz : Size) (dst src : Operand)
  /-- SUB: dst <- dst - src (R132). -/
  | sub (sz : Size) (dst src : Operand)
  /-- CMP: flags of dst - src (R133). -/
  | cmp (sz : Size) (dst src : Operand)
  /-- MUL: dst <- dst * src (R134). -/
  | mul (sz : Size) (dst src : Operand)
  /-- DIV: dst <- dst / src, remainder to the next register (R135). -/
  | div (sz : Size) (dst src : Operand)
  /-- AND: dst <- dst & src (R150). -/
  | and (sz : Size) (dst src : Operand)
  /-- OR: dst <- dst | src (R151). -/
  | or (sz : Size) (dst src : Operand)
  /-- XOR: dst <- dst ^ src (R152). -/
  | xor (sz : Size) (dst src : Operand)
  /-- LSL: dst shifted left by src (R153). -/
  | lsl (sz : Size) (dst src : Operand)
  /-- LSR: dst shifted right by src, zeros in (R154). -/
  | lsr (sz : Size) (dst src : Operand)
  /-- ASR: dst shifted right by src, sign in (R155). -/
  | asr (sz : Size) (dst src : Operand)
  /-- BR: branch always (R191). -/
  | br (d : BitVec 24)
  /-- BEQ: branch if Z = 1 (R192). -/
  | beq (d : BitVec 24)
  /-- BNE: branch if Z = 0 (R193). -/
  | bne (d : BitVec 24)
  /-- BLT: branch if N != V (R194). -/
  | blt (d : BitVec 24)
  /-- BGE: branch if N = V (R195). -/
  | bge (d : BitVec 24)
  /-- BGT: branch if Z = 0 and N = V (R196). -/
  | bgt (d : BitVec 24)
  /-- BLE: branch if Z = 1 or N != V (R197). -/
  | ble (d : BitVec 24)
  /-- BHI: branch if C = 0 and Z = 0 (R198). -/
  | bhi (d : BitVec 24)
  /-- BLOS: branch if C = 1 or Z = 1 (R199). -/
  | blos (d : BitVec 24)
  /-- BCC: branch if C = 0 (R200). -/
  | bcc (d : BitVec 24)
  /-- BCS: branch if C = 1 (R201). -/
  | bcs (d : BitVec 24)
  /-- BMI: branch if N = 1 (R202). -/
  | bmi (d : BitVec 24)
  /-- BPL: branch if N = 0 (R203). -/
  | bpl (d : BitVec 24)
  /-- BVS: branch if V = 1 (R204). -/
  | bvs (d : BitVec 24)
  /-- BVC: branch if V = 0 (R205). -/
  | bvc (d : BitVec 24)
  /-- EMT: trap number d24 (R210). -/
  | emt (d : BitVec 24)
  deriving DecidableEq, Repr

end Sys2Proof
end

