-- ==== Sys2Proof/WellFormed.lean ====
section
/-! DEFINITION. Which terms of `Instr` the encoding can express and the decoder answers. The sizes,
modes, register ids and 24-bit fields are bounded by their types; the one form left out is the
reserved DIV (30_encoding.md R88). -/

namespace Sys2Proof

/-- DIV with a Direct destination R15 is reserved: no register follows R15 for the remainder
(30_encoding.md R88; 41_move_arith.md R135). -/
def Operand.divReserved (dst : Operand) : Bool := dst.mode == .direct && dst.reg == 15

/-- Well-formed instructions: all but the reserved DIV. -/
def Instr.wellFormed : Instr → Bool
  | .div _ dst _ => !dst.divReserved
  | .hlt | .nop | .ret | .bpt | .clc | .clv | .clz | .cln | .sec | .sev | .sez | .sen => true
  | .jmp _ _ | .jsr _ _ => true
  | .mov _ _ _ | .add _ _ _ | .sub _ _ _ | .cmp _ _ _ | .mul _ _ _ => true
  | .and _ _ _ | .or _ _ _ | .xor _ _ _ | .lsl _ _ _ | .lsr _ _ _ | .asr _ _ _ => true
  | .br _ | .beq _ | .bne _ | .blt _ | .bge _ | .bgt _ | .ble _ | .bhi _ => true
  | .blos _ | .bcc _ | .bcs _ | .bmi _ | .bpl _ | .bvs _ | .bvc _ | .emt _ => true

end Sys2Proof
end

