-- ==== Sys2Proof/Decode.lean ====
section
/-! DEFINITION. The spec's own encoding tables, the decoder and, after it, the encoder (30_encoding.md
R60 to R79, R88). Decoder and encoder take the tables as an argument (00_scope.md R6); a machine decodes
by those of its own parameters. -/

namespace Sys2Proof

/-! ## The spec's own tables -/

/-- The opcode map of the spec (30_encoding.md R66). -/
def opcodeMap : List (Byte × Mnemonic) :=
  [(0x00, .hlt), (0x01, .nop), (0x02, .ret), (0x03, .bpt), (0x04, .clc), (0x05, .clv),
   (0x06, .clz), (0x07, .cln), (0x08, .sec), (0x09, .sev), (0x0A, .sez), (0x0B, .sen),
   (0x10, .jmp), (0x11, .jsr),
   (0x20, .mov), (0x21, .add), (0x22, .sub), (0x23, .cmp), (0x24, .mul), (0x25, .div),
   (0x26, .and), (0x27, .or), (0x28, .xor), (0x29, .lsl), (0x2A, .lsr), (0x2B, .asr),
   (0x40, .br), (0x41, .beq), (0x42, .bne), (0x43, .blt), (0x44, .bge),
   (0x45, .bgt), (0x46, .ble), (0x47, .bhi), (0x48, .blos), (0x49, .bcc),
   (0x4A, .bcs), (0x4B, .bmi), (0x4C, .bpl), (0x4D, .bvs), (0x4E, .bvc),
   (0x50, .emt)]

/-- The encoding of the spec: the opcode in bits 7:0 (30_encoding.md R61), sz 9:8, dm 11:10, sm 13:12,
dr 17:14, sr 21:18 (R62), d24 31:8 (R63), the opcode map (R66), the size codes 0, 1, 2 (R67), the mode
codes 0, 1, 2, 3 (R68). -/
def Encoding.spec : Encoding where
  opcodes := opcodeMap
  opLo := 0
  szLo := 8
  dmLo := 10
  smLo := 12
  drLo := 14
  srLo := 18
  d24Lo := 8
  size8 := 0
  size16 := 1
  size32 := 2
  direct := 0
  indirect := 1
  autoInc := 2
  autoDec := 3

/-- The parameters of the machine after reset: the spec's own encoding and, DESIGN CHOICE (log entry 4),
the values that the examples of 95_test_vectors.md use. Only `State.reset` has them; no statement about
every state rests on them. -/
def Params.examples : Params := { memSize := 0x10000, emtPutchar := 0, encoding := Encoding.spec }

/-! ## The codes of sizes and modes -/

/-- The size of a code; the code that the table leaves out is reserved (30_encoding.md R67, R75). -/
def sizeOfCode (e : Encoding) (c : BitVec 2) : Option Size :=
  if c = e.size8 then some .b8 else if c = e.size16 then some .b16
  else if c = e.size32 then some .b32 else none

/-- The code of a size (30_encoding.md R67). -/
def codeOfSize (e : Encoding) : Size → BitVec 2
  | .b8 => e.size8
  | .b16 => e.size16
  | .b32 => e.size32

/-- The mode of a code; four codes, four modes (30_encoding.md R68). -/
def modeOfCode (e : Encoding) (c : BitVec 2) : Mode :=
  if c = e.direct then .direct else if c = e.indirect then .indirect
  else if c = e.autoInc then .autoInc else .autoDec

/-- The code of a mode (30_encoding.md R68). -/
def codeOfMode (e : Encoding) : Mode → BitVec 2
  | .direct => e.direct
  | .indirect => e.indirect
  | .autoInc => e.autoInc
  | .autoDec => e.autoDec

/-! ## The decoder -/

/-- Why a word is no instruction. The step's outcome is Unknown for each (60_exceptions.md R223). -/
inductive DecodeError where
  /-- The opcode byte is not in the opcode map (30_encoding.md R74). -/
  | unknownOpcode (op : Byte)
  /-- A one- or two-operand word with `sz = 3` (30_encoding.md R75). -/
  | reservedSize
  /-- DIV with a Direct destination R15 (30_encoding.md R88). -/
  | divIntoPc
  /-- Fewer than four bytes were given to `decodeBytes`; a fetch never does. -/
  | truncated
  deriving DecidableEq, Repr

/-- The opcode byte (30_encoding.md R61). -/
def opcodeOf (e : Encoding) (w : Word) : Byte := w.extractLsb' e.opLo 8

/-- The field `d24` (30_encoding.md R63). -/
def d24Of (e : Encoding) (w : Word) : BitVec 24 := w.extractLsb' e.d24Lo 24

/-- The source operand fields `sm`, `sr` (30_encoding.md R62, R68, R69). -/
def srcOf (e : Encoding) (w : Word) : Operand :=
  { mode := modeOfCode e (w.extractLsb' e.smLo 2), reg := (w.extractLsb' e.srLo 4).toFin }

/-- The destination operand fields `dm`, `dr` (30_encoding.md R62, R68, R69). -/
def dstOf (e : Encoding) (w : Word) : Operand :=
  { mode := modeOfCode e (w.extractLsb' e.dmLo 2), reg := (w.extractLsb' e.drLo 4).toFin }

/-- The size field, rejected when reserved (30_encoding.md R67, R75). -/
def sizeOf? (e : Encoding) (w : Word) : Except DecodeError Size :=
  match sizeOfCode e (w.extractLsb' e.szLo 2) with
  | some sz => .ok sz
  | none => .error .reservedSize

/-- A one-operand word: `sz`, `sm`, `sr`; `dm` and `dr` are not read (30_encoding.md R65, R79). -/
def decodeOne (e : Encoding) (mk : Size → Operand → Instr) (w : Word) : Except DecodeError Instr :=
  match sizeOf? e w with
  | .ok sz => .ok (mk sz (srcOf e w))
  | .error err => .error err

/-- A two-operand word: `sz`, `dm`, `sm`, `dr`, `sr`; the reserved bits are not read (30_encoding.md
R65, R70). -/
def decodeTwo (e : Encoding) (mk : Size → Operand → Operand → Instr) (w : Word) :
    Except DecodeError Instr :=
  match sizeOf? e w with
  | .ok sz => .ok (mk sz (dstOf e w) (srcOf e w))
  | .error err => .error err

/-- The DIV word: the reserved size first, then the reserved destination (60_exceptions.md R228). -/
def decodeDiv (e : Encoding) (w : Word) : Except DecodeError Instr :=
  match sizeOf? e w with
  | .error err => .error err
  | .ok sz =>
    if (dstOf e w).mode = .direct ∧ (dstOf e w).reg = 15 then .error .divIntoPc
    else .ok (.div sz (dstOf e w) (srcOf e w))

/-- The instruction of a mnemonic, its fields read from the word by its class (30_encoding.md R65). -/
def decodeAs (e : Encoding) (w : Word) : Mnemonic → Except DecodeError Instr
  | .hlt => .ok .hlt
  | .nop => .ok .nop
  | .ret => .ok .ret
  | .bpt => .ok .bpt
  | .clc => .ok .clc
  | .clv => .ok .clv
  | .clz => .ok .clz
  | .cln => .ok .cln
  | .sec => .ok .sec
  | .sev => .ok .sev
  | .sez => .ok .sez
  | .sen => .ok .sen
  | .jmp => decodeOne e .jmp w
  | .jsr => decodeOne e .jsr w
  | .mov => decodeTwo e .mov w
  | .add => decodeTwo e .add w
  | .sub => decodeTwo e .sub w
  | .cmp => decodeTwo e .cmp w
  | .mul => decodeTwo e .mul w
  | .div => decodeDiv e w
  | .and => decodeTwo e .and w
  | .or => decodeTwo e .or w
  | .xor => decodeTwo e .xor w
  | .lsl => decodeTwo e .lsl w
  | .lsr => decodeTwo e .lsr w
  | .asr => decodeTwo e .asr w
  | .br => .ok (.br (d24Of e w))
  | .beq => .ok (.beq (d24Of e w))
  | .bne => .ok (.bne (d24Of e w))
  | .blt => .ok (.blt (d24Of e w))
  | .bge => .ok (.bge (d24Of e w))
  | .bgt => .ok (.bgt (d24Of e w))
  | .ble => .ok (.ble (d24Of e w))
  | .bhi => .ok (.bhi (d24Of e w))
  | .blos => .ok (.blos (d24Of e w))
  | .bcc => .ok (.bcc (d24Of e w))
  | .bcs => .ok (.bcs (d24Of e w))
  | .bmi => .ok (.bmi (d24Of e w))
  | .bpl => .ok (.bpl (d24Of e w))
  | .bvs => .ok (.bvs (d24Of e w))
  | .bvc => .ok (.bvc (d24Of e w))
  | .emt => .ok (.emt (d24Of e w))

/-- `decode(word)`: total on every word (30_encoding.md R73, R74, R75, R88). -/
def decode (e : Encoding) (w : Word) : Except DecodeError Instr :=
  match e.opcodes.lookup (opcodeOf e w) with
  | none => .error (.unknownOpcode (opcodeOf e w))
  | some m => decodeAs e w m

/-- The word of four bytes, the lowest address first: little-endian (20_memory.md R41). -/
def wordOfBytes (b0 b1 b2 b3 : Byte) : Word := b3 ++ b2 ++ b1 ++ b0

/-- The decoder over bytes as they lie in memory: one word, and the bytes that follow it
(30_encoding.md R60, R77). -/
def decodeBytes (e : Encoding) : List Byte → Except DecodeError (Instr × List Byte)
  | b0 :: b1 :: b2 :: b3 :: rest =>
    match decode e (wordOfBytes b0 b1 b2 b3) with
    | .ok i => .ok (i, rest)
    | .error err => .error err
  | _ => .error .truncated

/-! ## The encoder -/

/-- The mnemonic of an instruction. -/
def mnemonicOf : Instr → Mnemonic
  | .hlt => .hlt
  | .nop => .nop
  | .ret => .ret
  | .bpt => .bpt
  | .clc => .clc
  | .clv => .clv
  | .clz => .clz
  | .cln => .cln
  | .sec => .sec
  | .sev => .sev
  | .sez => .sez
  | .sen => .sen
  | .jmp _ _ => .jmp
  | .jsr _ _ => .jsr
  | .mov _ _ _ => .mov
  | .add _ _ _ => .add
  | .sub _ _ _ => .sub
  | .cmp _ _ _ => .cmp
  | .mul _ _ _ => .mul
  | .div _ _ _ => .div
  | .and _ _ _ => .and
  | .or _ _ _ => .or
  | .xor _ _ _ => .xor
  | .lsl _ _ _ => .lsl
  | .lsr _ _ _ => .lsr
  | .asr _ _ _ => .asr
  | .br _ => .br
  | .beq _ => .beq
  | .bne _ => .bne
  | .blt _ => .blt
  | .bge _ => .bge
  | .bgt _ => .bgt
  | .ble _ => .ble
  | .bhi _ => .bhi
  | .blos _ => .blos
  | .bcc _ => .bcc
  | .bcs _ => .bcs
  | .bmi _ => .bmi
  | .bpl _ => .bpl
  | .bvs _ => .bvs
  | .bvc _ => .bvc
  | .emt _ => .emt

/-- The opcode number of a mnemonic, read from the opcode map (30_encoding.md R66). -/
def opcodeNumber (e : Encoding) (m : Mnemonic) : Byte :=
  match e.opcodes.find? (fun row => row.2 = m) with
  | some row => row.1
  | none => 0

/-- `encode_none(op)`: the opcode field alone (30_encoding.md R73, R64). -/
def encodeNone (e : Encoding) (m : Mnemonic) : Word := (opcodeNumber e m).setWidth 32 <<< e.opLo

/-- `encode_OP(op, sz, dm, sm, dr, sr)` (30_encoding.md R73). -/
def encodeOp (e : Encoding) (m : Mnemonic) (sz : Size) (dm sm : BitVec 2) (dr sr : BitVec 4) : Word :=
  encodeNone e m ||| (codeOfSize e sz).setWidth 32 <<< e.szLo |||
    dm.setWidth 32 <<< e.dmLo ||| sm.setWidth 32 <<< e.smLo |||
    dr.setWidth 32 <<< e.drLo ||| sr.setWidth 32 <<< e.srLo

/-- A one-operand word: `dm` and `dr` are written as 0 (30_encoding.md R79). -/
def encodeOne (e : Encoding) (m : Mnemonic) (sz : Size) (src : Operand) : Word :=
  encodeOp e m sz 0 (codeOfMode e src.mode) 0 (BitVec.ofFin src.reg)

/-- A two-operand word; the reserved bits are written as 0 (30_encoding.md R70). -/
def encodeTwo (e : Encoding) (m : Mnemonic) (sz : Size) (dst src : Operand) : Word :=
  encodeOp e m sz (codeOfMode e dst.mode) (codeOfMode e src.mode) (BitVec.ofFin dst.reg)
    (BitVec.ofFin src.reg)

/-- `encode_BT(op, d)` (30_encoding.md R73). -/
def encodeBt (e : Encoding) (m : Mnemonic) (d : BitVec 24) : Word :=
  encodeNone e m ||| d.setWidth 32 <<< e.d24Lo

/-- `encode`: the word of an instruction (30_encoding.md R73). -/
def encode (e : Encoding) : Instr → Word
  | .hlt => encodeNone e .hlt
  | .nop => encodeNone e .nop
  | .ret => encodeNone e .ret
  | .bpt => encodeNone e .bpt
  | .clc => encodeNone e .clc
  | .clv => encodeNone e .clv
  | .clz => encodeNone e .clz
  | .cln => encodeNone e .cln
  | .sec => encodeNone e .sec
  | .sev => encodeNone e .sev
  | .sez => encodeNone e .sez
  | .sen => encodeNone e .sen
  | .jmp sz src => encodeOne e .jmp sz src
  | .jsr sz src => encodeOne e .jsr sz src
  | .mov sz dst src => encodeTwo e .mov sz dst src
  | .add sz dst src => encodeTwo e .add sz dst src
  | .sub sz dst src => encodeTwo e .sub sz dst src
  | .cmp sz dst src => encodeTwo e .cmp sz dst src
  | .mul sz dst src => encodeTwo e .mul sz dst src
  | .div sz dst src => encodeTwo e .div sz dst src
  | .and sz dst src => encodeTwo e .and sz dst src
  | .or sz dst src => encodeTwo e .or sz dst src
  | .xor sz dst src => encodeTwo e .xor sz dst src
  | .lsl sz dst src => encodeTwo e .lsl sz dst src
  | .lsr sz dst src => encodeTwo e .lsr sz dst src
  | .asr sz dst src => encodeTwo e .asr sz dst src
  | .br d => encodeBt e .br d
  | .beq d => encodeBt e .beq d
  | .bne d => encodeBt e .bne d
  | .blt d => encodeBt e .blt d
  | .bge d => encodeBt e .bge d
  | .bgt d => encodeBt e .bgt d
  | .ble d => encodeBt e .ble d
  | .bhi d => encodeBt e .bhi d
  | .blos d => encodeBt e .blos d
  | .bcc d => encodeBt e .bcc d
  | .bcs d => encodeBt e .bcs d
  | .bmi d => encodeBt e .bmi d
  | .bpl d => encodeBt e .bpl d
  | .bvs d => encodeBt e .bvs d
  | .bvc d => encodeBt e .bvc d
  | .emt d => encodeBt e .emt d

/-! ## The table's words -/

/-- `k` bytes of the number `v`, the least significant first. -/
def bytesOf : Nat → Nat → List Byte
  | 0, _ => []
  | k + 1, v => BitVec.ofNat 8 v :: bytesOf k (v / 256)

/-- The instruction the decoder reads, by the spec's own tables, from the low `nbits` bits of `w`, laid
out in memory as the hardware stores them and followed by zeros up to the longest instruction, 12 bytes
(30_encoding.md R60, R77). -/
def decodeTableWord (nbits w : Nat) : Option Instr :=
  match decodeBytes Encoding.spec (bytesOf 12 (w % 2 ^ nbits)) with
  | .ok (i, _) => some i
  | .error _ => none

end Sys2Proof
end

