-- ==== Sys2Proof/Machine/State.lean ====
section
/-! DEFINITION. The machine's state as plain data, the reasons a step can stop, and the state after
reset (10_state.md; 60_exceptions.md R220). -/

namespace Sys2Proof.Machine

/-- The four flags (10_state.md R29). They are no register: no instruction reads or writes them as a
word (R31). -/
structure Flags where
  /-- N, negative. -/
  n : Bool
  /-- Z, zero. -/
  z : Bool
  /-- V, signed overflow. -/
  v : Bool
  /-- C, carry or borrow. -/
  c : Bool
  deriving DecidableEq, Repr

/-- The outcomes with which a step ends normally (60_exceptions.md R220). The error outcomes are the
constructors of `Fault`. -/
inductive StepOutcome where
  | continue
  | halt
  | breakpoint
  deriving DecidableEq, Repr

/-- Memory: the listed bytes, by address, in the canonical form that `Memory.wf` states. -/
abbrev Memory := List Host.Cell

/-- DESIGN CHOICE (log entry 3): what an unlisted address reads as. A launch memory with any other
byte lists that byte, so every launch memory is a `Memory`. -/
def unwrittenByte : Byte := 0

/-- The canonical form of a memory: addresses strictly rising, and no entry equal to what an unlisted
address reads as. -/
abbrev Memory.wf (m : Memory) : Prop :=
  m.Pairwise (fun x y => x.1 < y.1) ∧ ∀ x ∈ m, x.2 ≠ unwrittenByte

/-- The whole state of the machine (10_state.md R20, R29, R33, R34, R35), its parameters
(00_scope.md R6) and the outcome of the last step. -/
structure State where
  /-- R0 to R15; R14 is SP, R15 is PC (10_state.md R20). -/
  regs : Vector Word 16
  /-- N, Z, V, C (10_state.md R29). -/
  flags : Flags
  /-- The bytes at addresses 0 to `MEM_SIZE - 1` (10_state.md R33). -/
  mem : Memory
  /-- The console stream, oldest byte first (10_state.md R34). -/
  console : List Byte
  /-- The alignment report log, oldest entry first: address and size in bytes (10_state.md R35). -/
  alignLog : List (Word × Nat)
  /-- The machine's parameters, the tables of its encoding among them; no instruction changes them
  (00_scope.md R6; log entries 4 and 9). -/
  params : Params
  /-- The MODEL's own field (log entry 6): the value that the step returned, where that is Continue,
  Halt or Breakpoint (60_exceptions.md R220). No instruction reads it. -/
  outcome : StepOutcome
  deriving DecidableEq, Repr

/-- The error outcomes of a step (60_exceptions.md R220). Each carries, beside what the spec says it
records, the state that the step left behind (R221), from which the host may step again (R226). -/
inductive Fault where
  /-- MemFault(addr): raised by any access at an address not below `MEM_SIZE` (20_memory.md R47;
  60_exceptions.md R222). Safe: the spec names this outcome. -/
  | memFault (addr : Word) (left : State)
  /-- Unknown(word): raised by the step on a word that is no instruction (60_exceptions.md R223) and
  by the meaning of the reserved DIV (41_move_arith.md R135). Safe: the spec names this outcome. -/
  | unknown (word : Word) (left : State)
  /-- DivideError: raised by DIV with a zero divisor (60_exceptions.md R224). Safe: the spec names
  this outcome. -/
  | divideError (left : State)
  deriving DecidableEq, Repr

/-- The reasons for which the model gives a step no meaning. -/
inductive Refusal where
  /-- Raised by an arm of `exec` whose instruction has no meaning yet; no arm does. Safe. -/
  | notModelled (mnemonic : String)
  /-- Raised by EMT with a number that is not the putchar trap's and at which `TrapTable` is
  undefined: the spec gives it no meaning (46_trap_halt.md R210). Safe: the model stops where the
  environment may go on. -/
  | trapUndefined (number : BitVec 24)
  deriving DecidableEq, Repr

/-- The machine right after reset. Console and AlignLog are empty (10_state.md R37); the spec states
no other reset value. DESIGN CHOICE (log entries 1 to 4 and 6): registers and flags 0, memory with
nothing listed, the parameters of the spec's examples, outcome Continue. The encoding is the spec's own
(00_scope.md R6; 30_encoding.md R61 to R68). -/
def State.reset : State where
  regs := Vector.replicate 16 0
  flags := { n := false, z := false, v := false, c := false }
  mem := []
  console := []
  alignLog := []
  params := Params.examples
  outcome := .continue

end Sys2Proof.Machine
end

