-- ==== Sys2Proof/Machine/Ops.lean ====
section
/-! DEFINITION. The named operations over registers and memory, and the one operation by which a step
raises an error outcome (00_scope.md R8; 20_memory.md R40 to R47; 60_exceptions.md R221). -/

namespace Sys2Proof.Machine

/-! ## The result of a piece of pseudocode -/

/-- What a piece of a step's pseudocode ends with: a value and the state it left, or an error outcome
that ends the step there (00_scope.md R8, `raise`). -/
inductive Res (α : Type) where
  | ok (a : α) (s : State)
  | stop (f : Fault)
  deriving DecidableEq, Repr

/-- One statement after the other: the later one sees every write of the earlier (00_scope.md R9). -/
def Res.bind {α β : Type} (r : Res α) (k : α → State → Res β) : Res β :=
  match r with
  | .ok a s => k a s
  | .stop f => .stop f

/-- The end of an instruction's pseudocode: the step's outcome. -/
def Res.toOutcome (r : Res Unit) : Host.Outcome State Fault Refusal :=
  match r with
  | .ok _ s => .next s
  | .stop f => .fault f

/-- `raise E(info)`: the pseudocode ends here, every write already made stands, the outcome is E
(60_exceptions.md R221). The machine has no other way to take an exception: nothing is saved, no
vector is fetched and no handler runs on the core (R229). -/
def raise {α : Type} (e : State → Fault) (s : State) : Res α := .stop (e s)

/-- The state that a step with an error outcome left behind (60_exceptions.md R221). The machine has
no return from a trap (R230): the host goes on by stepping from this state, repaired or not (R226). -/
def leftBehind : Fault → State
  | .memFault _ s => s
  | .unknown _ s => s
  | .divideError s => s

/-! ## Registers -/

/-- `x[r]` (00_scope.md R8). No register is hardwired (10_state.md R21). -/
def State.reg (s : State) (r : RegId) : Word := s.regs.get r

/-- `x[r] <- v` (00_scope.md R8). -/
def State.setReg (s : State) (r : RegId) (v : Word) : State :=
  { s with regs := s.regs.set r.val v r.isLt }

/-- `pc`, an alias of R15 (10_state.md R20). -/
def State.pc (s : State) : Word := s.reg 15

/-- `pc <- t`. -/
def State.setPc (s : State) (t : Word) : State := s.setReg 15 t

/-- `sp`, an alias of R14 (10_state.md R20). -/
def State.sp (s : State) : Word := s.reg 14

/-- `sp <- v`. -/
def State.setSp (s : State) (v : Word) : State := s.setReg 14 v

/-- All four flags written as one group (10_state.md R30). -/
def State.setFlags (s : State) (f : Flags) : State := { s with flags := f }

/-- `outcome <- K` (00_scope.md R8). -/
def State.setOutcome (s : State) (o : StepOutcome) : State := { s with outcome := o }

/-- `Console <- Console ++ [b]` (00_scope.md R8; 10_state.md R34). -/
def State.print (s : State) (b : Byte) : State := { s with console := s.console ++ [b] }

/-! ## Operand sizes -/

/-- `n = 2^sz`: the size in bytes (30_encoding.md R67). -/
def sizeBytes : Size → Nat
  | .b8 => 1
  | .b16 => 2
  | .b32 => 4

/-- `S = 8 * n`: the size in bits (30_encoding.md R67). -/
def sizeBits (sz : Size) : Nat := 8 * sizeBytes sz

/-- `2^(8n) - 1` as a memory word (20_memory.md R43). -/
def wordMask (sz : Size) : Word := BitVec.ofNat 32 (2 ^ sizeBits sz - 1)

/-! ## Memory -/

/-- The byte at an address. -/
def Memory.get : Memory → Nat → Byte
  | [], _ => unwrittenByte
  | (k, b) :: rest, a => if k = a then b else Memory.get rest a

/-- The entries at other addresses. -/
def Memory.erase : Memory → Nat → Memory
  | [], _ => []
  | (k, b) :: rest, a => if k = a then Memory.erase rest a else (k, b) :: Memory.erase rest a

/-- A new entry, before the first one of a higher address. -/
def Memory.insert : Memory → Nat → Byte → Memory
  | [], a, v => [(a, v)]
  | (k, b) :: rest, a, v =>
    if a < k then (a, v) :: (k, b) :: rest else (k, b) :: Memory.insert rest a v

/-- Writes the byte at an address and keeps the canonical form. -/
def Memory.set (m : Memory) (a : Nat) (v : Byte) : Memory :=
  if v = unwrittenByte then m.erase a else (m.erase a).insert a v

/-- `word(i)`: the little-endian 32-bit word at address 4i (20_memory.md R41). -/
def Memory.word (m : Memory) (i : Nat) : Word :=
  m.get (4 * i + 3) ++ m.get (4 * i + 2) ++ m.get (4 * i + 1) ++ m.get (4 * i)

/-- `word(i) <- w` (20_memory.md R41). -/
def Memory.setWord (m : Memory) (i : Nat) (w : Word) : Memory :=
  (((m.set (4 * i) (w.extractLsb' 0 8)).set (4 * i + 1) (w.extractLsb' 8 8)).set (4 * i + 2)
    (w.extractLsb' 16 8)).set (4 * i + 3) (w.extractLsb' 24 8)

/-- The byte at an address, as the state holds it. -/
def State.byte (s : State) (a : Nat) : Byte := s.mem.get a

/-- The access is misaligned: `addr mod n != 0` (20_memory.md R46). -/
def misaligned (sz : Size) (addr : Word) : Bool := addr.toNat % sizeBytes sz != 0

/-- The alignment report of an access that is carried out (20_memory.md R46; 10_state.md R35). -/
def State.logAccess (s : State) (sz : Size) (addr : Word) : State :=
  if misaligned sz addr then { s with alignLog := s.alignLog ++ [(addr, sizeBytes sz)] } else s

/-- `MemRead(addr, n)` (20_memory.md R44): the bounds check, the alignment report, then the masked
extract from the one word that holds the addressed byte. -/
def memRead (sz : Size) (addr : Word) (s : State) : Res Word :=
  if s.params.memSize ≤ addr.toNat then raise (.memFault addr) s
  else
    let i := addr.toNat / 4
    let o := addr.toNat % 4
    .ok ((s.mem.word i >>> (8 * o)) &&& wordMask sz) (s.logAccess sz addr)

/-- `word(i)` after the masked read-modify-write of `MemWrite` (20_memory.md R45): mask and data are
shifted to the byte offset `o` and cut to the word. -/
def mergeWord (sz : Size) (o : Nat) (v old : Word) : Word :=
  let m := wordMask sz <<< (8 * o)
  let d := (v &&& wordMask sz) <<< (8 * o)
  (old &&& ~~~m) ||| d

/-- `MemWrite(addr, n, v)` (20_memory.md R45). -/
def memWrite (sz : Size) (addr : Word) (v : Word) (s : State) : Res Unit :=
  if s.params.memSize ≤ addr.toNat then raise (.memFault addr) s
  else
    let i := addr.toNat / 4
    let o := addr.toNat % 4
    let s := s.logAccess sz addr
    .ok () { s with mem := s.mem.setWord i (mergeWord sz o v (s.mem.word i)) }

/-! ## The stack -/

/-- A push: `sp <- sp - 4; MemWrite(sp, 4, v)` (10_state.md R28). -/
def push (v : Word) (s : State) : Res Unit :=
  let s := s.setSp (s.sp - 4)
  memWrite .b32 s.sp v s

/-- A pop: `v <- MemRead(sp, 4); sp <- sp + 4` (10_state.md R28). -/
def pop (s : State) : Res Word :=
  (memRead .b32 s.sp s).bind fun v s => .ok v (s.setSp (s.sp + 4))

end Sys2Proof.Machine
end

