-- ==== Sys2Proof/Machine/Flags.lean ====
section
/-! DEFINITION. The size-masked result, the four flags computed from the wide result, and the branch
conditions (40_step_and_operands.md R111 to R115; 45_branches.md R191 to R205). -/

namespace Sys2Proof.Machine

/-- `M = 2^S - 1`, the size mask, as a wide value (40_step_and_operands.md R102). -/
def wideMask (sz : Size) : Wide := BitVec.ofNat 64 (2 ^ sizeBits sz - 1)

/-- `w mod 2^S`, the size-masked result (40_step_and_operands.md R111). -/
def masked (sz : Size) (w : Wide) : Wide := w &&& wideMask sz

/-- `v[S-1]`, the sign of an S-bit value (40_step_and_operands.md R114). -/
def signBit (sz : Size) (v : Wide) : Bool := v.getLsbD (sizeBits sz - 1)

/-- `sext_S(v)`: the low S bits of v read as two's complement and extended to 32 bits (00_scope.md
R8). -/
def sextSize (sz : Size) (v : Wide) : Word := (v.setWidth (sizeBits sz)).signExtend 32

/-- The low S bits of v read as two's complement and extended to the wide accumulator: `sa` of
42_logic_shift.md R155, modulo 2^64. -/
def sextWide (sz : Size) (v : Wide) : Wide := (v.setWidth (sizeBits sz)).signExtend 64

/-- The `kind` of an instruction, which selects its V formula (40_step_and_operands.md R112). -/
inductive FlagKind where
  | add
  | sub
  | cmp
  | other
  deriving DecidableEq, Repr

/-- V after ADD: the operands share sign and the result's sign differs from theirs
(40_step_and_operands.md R113). -/
def overflowAdd (a b r : Bool) : Bool := a == b && r != a

/-- V after SUB: the operands differ in sign and the result's sign equals the source operand's
(40_step_and_operands.md R113). -/
def overflowSub (a b r : Bool) : Bool := a != b && r == b

/-- V after CMP: the operands differ in sign and the result's sign equals the destination operand's.
It is a formula of its own and not SUB's (40_step_and_operands.md R113). -/
def overflowCmp (a b r : Bool) : Bool := a != b && r == a

/-- V by kind, from the signs of the destination operand, the source operand and the result
(40_step_and_operands.md R112). -/
def overflowOf (kind : FlagKind) (a b r : Bool) : Bool :=
  match kind with
  | .add => overflowAdd a b r
  | .sub => overflowSub a b r
  | .cmp => overflowCmp a b r
  | .other => false

/-- `SetFlags(w, a, b, kind)` (40_step_and_operands.md R112): a is the destination operand, b the
source operand. C is the single bit S of w. -/
def flagsOf (kind : FlagKind) (sz : Size) (w a b : Wide) : Flags :=
  let r := masked sz w
  { n := signBit sz r
    z := r == 0
    v := overflowOf kind (signBit sz a) (signBit sz b) (signBit sz r)
    c := w.getLsbD (sizeBits sz) }

/-! ## Branch conditions -/

/-- BR: always (45_branches.md R191). -/
def condAlways (_ : Flags) : Bool := true
/-- BEQ: Z = 1 (45_branches.md R192). -/
def condEqual (f : Flags) : Bool := f.z
/-- BNE: Z = 0 (45_branches.md R193). -/
def condNotEqual (f : Flags) : Bool := !f.z
/-- BLT: N != V (45_branches.md R194). -/
def condLess (f : Flags) : Bool := f.n != f.v
/-- BGE: N = V (45_branches.md R195). -/
def condGreaterEqual (f : Flags) : Bool := f.n == f.v
/-- BGT: Z = 0 and N = V (45_branches.md R196). -/
def condGreater (f : Flags) : Bool := !f.z && f.n == f.v
/-- BLE: Z = 1 or N != V (45_branches.md R197). -/
def condLessEqual (f : Flags) : Bool := f.z || f.n != f.v
/-- BHI: C = 0 and Z = 0 (45_branches.md R198). -/
def condHigher (f : Flags) : Bool := !f.c && !f.z
/-- BLOS: C = 1 or Z = 1 (45_branches.md R199). -/
def condLowerSame (f : Flags) : Bool := f.c || f.z
/-- BCC: C = 0 (45_branches.md R200). -/
def condCarryClear (f : Flags) : Bool := !f.c
/-- BCS: C = 1 (45_branches.md R201). -/
def condCarrySet (f : Flags) : Bool := f.c
/-- BMI: N = 1 (45_branches.md R202). -/
def condMinus (f : Flags) : Bool := f.n
/-- BPL: N = 0 (45_branches.md R203). -/
def condPlus (f : Flags) : Bool := !f.n
/-- BVS: V = 1 (45_branches.md R204). -/
def condOverflowSet (f : Flags) : Bool := f.v
/-- BVC: V = 0 (45_branches.md R205). -/
def condOverflowClear (f : Flags) : Bool := !f.v

end Sys2Proof.Machine
end

