-- ==== Sys2Proof/Machine/Branch.lean ====
section
/-! DEFINITION. The relative branches (45_branches.md R190 to R205). `s` is the state after the fetch:
its pc is the branch word's address plus 4. -/

namespace Sys2Proof.Machine

/-- `(pc + sdisp24(d24)) mod 2^32`: the displacement is in bytes, unscaled (45_branches.md R190). -/
def branchTarget (s : State) (d : BitVec 24) : Word := s.pc + d.signExtend 32

/-- The common rule of the fifteen branches (45_branches.md R190). -/
def branchIf (taken : Bool) (d : BitVec 24) (s : State) : Host.Outcome State Fault Refusal :=
  .next (if taken then s.setPc (branchTarget s d) else s)

/-- BR: branch always (45_branches.md R191). -/
def execBr (d : BitVec 24) (s : State) : Host.Outcome State Fault Refusal :=
  branchIf (condAlways s.flags) d s

/-- BEQ: branch if equal (45_branches.md R192). -/
def execBeq (d : BitVec 24) (s : State) : Host.Outcome State Fault Refusal :=
  branchIf (condEqual s.flags) d s

/-- BNE: branch if not equal (45_branches.md R193). -/
def execBne (d : BitVec 24) (s : State) : Host.Outcome State Fault Refusal :=
  branchIf (condNotEqual s.flags) d s

/-- BLT: branch if signed less (45_branches.md R194). -/
def execBlt (d : BitVec 24) (s : State) : Host.Outcome State Fault Refusal :=
  branchIf (condLess s.flags) d s

/-- BGE: branch if signed greater or equal (45_branches.md R195). -/
def execBge (d : BitVec 24) (s : State) : Host.Outcome State Fault Refusal :=
  branchIf (condGreaterEqual s.flags) d s

/-- BGT: branch if signed greater (45_branches.md R196). -/
def execBgt (d : BitVec 24) (s : State) : Host.Outcome State Fault Refusal :=
  branchIf (condGreater s.flags) d s

/-- BLE: branch if signed less or equal (45_branches.md R197). -/
def execBle (d : BitVec 24) (s : State) : Host.Outcome State Fault Refusal :=
  branchIf (condLessEqual s.flags) d s

/-- BHI: branch if unsigned higher (45_branches.md R198). -/
def execBhi (d : BitVec 24) (s : State) : Host.Outcome State Fault Refusal :=
  branchIf (condHigher s.flags) d s

/-- BLOS: branch if unsigned lower or same (45_branches.md R199). -/
def execBlos (d : BitVec 24) (s : State) : Host.Outcome State Fault Refusal :=
  branchIf (condLowerSame s.flags) d s

/-- BCC: branch if carry clear (45_branches.md R200). -/
def execBcc (d : BitVec 24) (s : State) : Host.Outcome State Fault Refusal :=
  branchIf (condCarryClear s.flags) d s

/-- BCS: branch if carry set (45_branches.md R201). -/
def execBcs (d : BitVec 24) (s : State) : Host.Outcome State Fault Refusal :=
  branchIf (condCarrySet s.flags) d s

/-- BMI: branch if negative (45_branches.md R202). -/
def execBmi (d : BitVec 24) (s : State) : Host.Outcome State Fault Refusal :=
  branchIf (condMinus s.flags) d s

/-- BPL: branch if positive (45_branches.md R203). -/
def execBpl (d : BitVec 24) (s : State) : Host.Outcome State Fault Refusal :=
  branchIf (condPlus s.flags) d s

/-- BVS: branch if overflow set (45_branches.md R204). -/
def execBvs (d : BitVec 24) (s : State) : Host.Outcome State Fault Refusal :=
  branchIf (condOverflowSet s.flags) d s

/-- BVC: branch if overflow clear (45_branches.md R205). -/
def execBvc (d : BitVec 24) (s : State) : Host.Outcome State Fault Refusal :=
  branchIf (condOverflowClear s.flags) d s

end Sys2Proof.Machine
end

