-- ==== Sys2Proof/Machine/Operands.lean ====
section
/-! DEFINITION. The addressing-mode resolver and the template of the two-operand instructions
(40_step_and_operands.md R102 to R110). -/

namespace Sys2Proof.Machine

/-- `step(r)`: 4 for R14 and R15 whatever the size, else the operand size in bytes
(40_step_and_operands.md R103). -/
def stepOf (sz : Size) (r : RegId) : Word :=
  if r = 14 ∨ r = 15 then 4 else BitVec.ofNat 32 (sizeBytes sz)

/-- `x[r] <- (x[r] + step(r)) mod 2^32` (40_step_and_operands.md R104, R109). -/
def stepUp (sz : Size) (r : RegId) (s : State) : State := s.setReg r (s.reg r + stepOf sz r)

/-- `x[r] <- (x[r] - step(r)) mod 2^32` (40_step_and_operands.md R104, R105). -/
def stepDown (sz : Size) (r : RegId) (s : State) : State := s.setReg r (s.reg r - stepOf sz r)

/-- The value of a memory operand: `MemRead(ea, n)`, zero-extended (40_step_and_operands.md R104,
R106). -/
def readOperand (sz : Size) (ea : Word) (s : State) : Res Wide :=
  (memRead sz ea s).bind fun v s => .ok (v.setWidth 64) s

/-- `SrcValue(sm, sr)` (40_step_and_operands.md R104): the source operand, zero-extended, with the
mode's side effect. -/
def srcValue (sz : Size) (o : Operand) (s : State) : Res Wide :=
  match o.mode with
  | .direct => .ok (masked sz ((s.reg o.reg).setWidth 64)) s
  | .indirect => readOperand sz (s.reg o.reg) s
  | .autoInc => (readOperand sz (s.reg o.reg) s).bind fun b s => .ok b (stepUp sz o.reg s)
  | .autoDec =>
    let s := stepDown sz o.reg s
    readOperand sz (s.reg o.reg) s

/-- Where a destination is: a register or a memory cell (40_step_and_operands.md R105). -/
inductive Loc where
  | reg (r : RegId)
  | mem (ea : Word)
  deriving DecidableEq, Repr

/-- `DestLocate(dm, dr)` (40_step_and_operands.md R105): where the destination is, fixed once, with
the AutoDecrement side effect. It accesses no memory and cannot fault. -/
def destLocate (sz : Size) (o : Operand) (s : State) : Loc × State :=
  match o.mode with
  | .direct => (.reg o.reg, s)
  | .indirect => (.mem (s.reg o.reg), s)
  | .autoInc => (.mem (s.reg o.reg), s)
  | .autoDec =>
    let s := stepDown sz o.reg s
    (.mem (s.reg o.reg), s)

/-- `DestRead(loc)`: the destination operand, zero-extended (40_step_and_operands.md R106). -/
def destRead (sz : Size) (loc : Loc) (s : State) : Res Wide :=
  match loc with
  | .reg r => .ok (masked sz ((s.reg r).setWidth 64)) s
  | .mem ea => readOperand sz ea s

/-- `DestWrite(loc, r)` (40_step_and_operands.md R107): a register takes all 32 bits of the sign
extension of the low S bits, memory takes n bytes. -/
def destWrite (sz : Size) (loc : Loc) (r : Wide) (s : State) : Res Unit :=
  match loc with
  | .reg d => .ok () (s.setReg d (sextSize sz r))
  | .mem ea => memWrite sz ea (r.setWidth 32) s

/-- `DestFinish(dm, dr)`: the AutoIncrement side effect of the destination
(40_step_and_operands.md R109). -/
def destFinish (sz : Size) (o : Operand) (s : State) : State :=
  match o.mode with
  | .autoInc => stepUp sz o.reg s
  | .direct => s
  | .indirect => s
  | .autoDec => s

/-- The template of the two-operand instructions that read and write their destination
(40_step_and_operands.md R110): source, destination located and read, computed, stored, finished,
flags. -/
def aluUpdate (f : Size → Wide → Wide → Wide) (kind : FlagKind) (sz : Size) (dst src : Operand)
    (s : State) : Res Unit :=
  (srcValue sz src s).bind fun b s =>
  let (loc, s) := destLocate sz dst s
  (destRead sz loc s).bind fun a s =>
  let w := f sz a b
  (destWrite sz loc (masked sz w) s).bind fun _ s =>
  let s := destFinish sz dst s
  .ok () (s.setFlags (flagsOf kind sz w a b))

/-- The template without the destination read (40_step_and_operands.md R110): the result is the
source operand, and 0 stands for the operand that is not read (41_move_arith.md R130). -/
def aluMove (sz : Size) (dst src : Operand) (s : State) : Res Unit :=
  (srcValue sz src s).bind fun b s =>
  let (loc, s) := destLocate sz dst s
  (destWrite sz loc b s).bind fun _ s =>
  let s := destFinish sz dst s
  .ok () (s.setFlags (flagsOf .other sz b 0 b))

/-- The template without the store (40_step_and_operands.md R110, R109): the destination is read,
its AutoIncrement still happens. -/
def aluCompare (f : Size → Wide → Wide → Wide) (kind : FlagKind) (sz : Size) (dst src : Operand)
    (s : State) : Res Unit :=
  (srcValue sz src s).bind fun b s =>
  let (loc, s) := destLocate sz dst s
  (destRead sz loc s).bind fun a s =>
  let w := f sz a b
  let s := destFinish sz dst s
  .ok () (s.setFlags (flagsOf kind sz w a b))

end Sys2Proof.Machine
end

