-- ==== Sys2Proof/Machine/Control.lean ====
section
/-! DEFINITION. JMP, JSR, RET (44_control_transfer.md R180 to R182). `s` is the state after the fetch;
none of the three writes a flag. -/

namespace Sys2Proof.Machine

/-- JMP: pc takes the operand's value, zero-extended (44_control_transfer.md R180). -/
def execJmp (sz : Size) (src : Operand) (s : State) : Host.Outcome State Fault Refusal :=
  Res.toOutcome ((srcValue sz src s).bind fun t s => .ok () (s.setPc (t.setWidth 32)))

/-- JSR: the operand is resolved first, with its side effects; the pc that then stands is pushed; pc
takes the operand's value, zero-extended (44_control_transfer.md R181). -/
def execJsr (sz : Size) (src : Operand) (s : State) : Host.Outcome State Fault Refusal :=
  Res.toOutcome ((srcValue sz src s).bind fun t s =>
    (push s.pc s).bind fun _ s => .ok () (s.setPc (t.setWidth 32)))

/-- RET: pc takes the word popped (44_control_transfer.md R182). -/
def execRet (s : State) : Host.Outcome State Fault Refusal :=
  Res.toOutcome ((pop s).bind fun t s => .ok () (s.setPc t))

end Sys2Proof.Machine
end

