-- ==== Sys2Proof/Machine/FlagOps.lean ====
section
/-! DEFINITION. The single-flag clear and set instructions (43_flag_ops.md R170 to R177): one flag
write each, nothing else. -/

namespace Sys2Proof.Machine

/-- CLC: C <- 0 (43_flag_ops.md R170). -/
def execClc (s : State) : Host.Outcome State Fault Refusal := .next (s.setFlags { s.flags with c := false })

/-- CLV: V <- 0 (43_flag_ops.md R171). -/
def execClv (s : State) : Host.Outcome State Fault Refusal := .next (s.setFlags { s.flags with v := false })

/-- CLZ: Z <- 0 (43_flag_ops.md R172). -/
def execClz (s : State) : Host.Outcome State Fault Refusal := .next (s.setFlags { s.flags with z := false })

/-- CLN: N <- 0 (43_flag_ops.md R173). -/
def execCln (s : State) : Host.Outcome State Fault Refusal := .next (s.setFlags { s.flags with n := false })

/-- SEC: C <- 1 (43_flag_ops.md R174). -/
def execSec (s : State) : Host.Outcome State Fault Refusal := .next (s.setFlags { s.flags with c := true })

/-- SEV: V <- 1 (43_flag_ops.md R175). -/
def execSev (s : State) : Host.Outcome State Fault Refusal := .next (s.setFlags { s.flags with v := true })

/-- SEZ: Z <- 1 (43_flag_ops.md R176). -/
def execSez (s : State) : Host.Outcome State Fault Refusal := .next (s.setFlags { s.flags with z := true })

/-- SEN: N <- 1 (43_flag_ops.md R177). -/
def execSen (s : State) : Host.Outcome State Fault Refusal := .next (s.setFlags { s.flags with n := true })

end Sys2Proof.Machine
end

