-- ==== Sys2Proof/Machine/LogicShift.lean ====
section
/-! DEFINITION. AND, OR, XOR, LSL, LSR, ASR (42_logic_shift.md R150 to R155). The shift count is the
whole S-bit source operand. -/

namespace Sys2Proof.Machine

/-- `a & b` (42_logic_shift.md R150). -/
def wideAnd (_ : Size) (a b : Wide) : Wide := a &&& b

/-- `a | b` (42_logic_shift.md R151). -/
def wideOr (_ : Size) (a b : Wide) : Wide := a ||| b

/-- `a ^ b` (42_logic_shift.md R152). -/
def wideXor (_ : Size) (a b : Wide) : Wide := a ^^^ b

/-- `(a * 2^k) mod 2^64` for k < 64, else 0 (42_logic_shift.md R153). -/
def wideLsl (_ : Size) (a k : Wide) : Wide := if k.toNat < 64 then a <<< k.toNat else 0

/-- `floor(a / 2^k)` (42_logic_shift.md R154); a is below 2^32, so it is 0 from k = 64 on. -/
def wideLsr (_ : Size) (a k : Wide) : Wide := if k.toNat < 64 then a >>> k.toNat else 0

/-- `floor(sa / 2^k) mod 2^S` (42_logic_shift.md R155); from k = 63 on only the sign is left. -/
def wideAsr (sz : Size) (a k : Wide) : Wide :=
  masked sz ((sextWide sz a).sshiftRight (min k.toNat 63))

/-- AND (42_logic_shift.md R150). -/
def execAnd (sz : Size) (dst src : Operand) (s : State) : Host.Outcome State Fault Refusal :=
  (aluUpdate wideAnd .other sz dst src s).toOutcome

/-- OR (42_logic_shift.md R151). -/
def execOr (sz : Size) (dst src : Operand) (s : State) : Host.Outcome State Fault Refusal :=
  (aluUpdate wideOr .other sz dst src s).toOutcome

/-- XOR (42_logic_shift.md R152). -/
def execXor (sz : Size) (dst src : Operand) (s : State) : Host.Outcome State Fault Refusal :=
  (aluUpdate wideXor .other sz dst src s).toOutcome

/-- LSL (42_logic_shift.md R153). -/
def execLsl (sz : Size) (dst src : Operand) (s : State) : Host.Outcome State Fault Refusal :=
  (aluUpdate wideLsl .other sz dst src s).toOutcome

/-- LSR (42_logic_shift.md R154). -/
def execLsr (sz : Size) (dst src : Operand) (s : State) : Host.Outcome State Fault Refusal :=
  (aluUpdate wideLsr .other sz dst src s).toOutcome

/-- ASR (42_logic_shift.md R155). -/
def execAsr (sz : Size) (dst src : Operand) (s : State) : Host.Outcome State Fault Refusal :=
  (aluUpdate wideAsr .other sz dst src s).toOutcome

end Sys2Proof.Machine
end

