-- ==== Sys2Proof/Machine/MoveArith.lean ====
section
/-! DEFINITION. MOV, ADD, SUB, CMP, MUL, DIV (41_move_arith.md R130 to R135). `s` is the state after
the fetch: its pc is the address of the instruction word plus 4 (40_step_and_operands.md R100). -/

namespace Sys2Proof.Machine

/-- The wide sum (41_move_arith.md R131). -/
def wideAdd (_ : Size) (a b : Wide) : Wide := a + b

/-- The wide difference, modulo 2^64 (41_move_arith.md R132). -/
def wideSub (_ : Size) (a b : Wide) : Wide := a - b

/-- CMP's wide difference, destination minus source (41_move_arith.md R133). -/
def wideCmp (_ : Size) (a b : Wide) : Wide := a - b

/-- The wide product of the zero-extended operands (41_move_arith.md R134). -/
def wideMul (_ : Size) (a b : Wide) : Wide := a * b

/-- MOV (41_move_arith.md R130). -/
def execMov (sz : Size) (dst src : Operand) (s : State) : Host.Outcome State Fault Refusal :=
  (aluMove sz dst src s).toOutcome

/-- ADD (41_move_arith.md R131). -/
def execAdd (sz : Size) (dst src : Operand) (s : State) : Host.Outcome State Fault Refusal :=
  (aluUpdate wideAdd .add sz dst src s).toOutcome

/-- SUB, destination minus source (41_move_arith.md R132). -/
def execSub (sz : Size) (dst src : Operand) (s : State) : Host.Outcome State Fault Refusal :=
  (aluUpdate wideSub .sub sz dst src s).toOutcome

/-- CMP (41_move_arith.md R133): the difference of SUB, nothing stored, V by a formula of its own. -/
def execCmp (sz : Size) (dst src : Operand) (s : State) : Host.Outcome State Fault Refusal :=
  (aluCompare wideCmp .cmp sz dst src s).toOutcome

/-- MUL (41_move_arith.md R134). -/
def execMul (sz : Size) (dst src : Operand) (s : State) : Host.Outcome State Fault Refusal :=
  (aluUpdate wideMul .other sz dst src s).toOutcome

/-- The quotient, unsigned and rounded toward zero (41_move_arith.md R135). -/
def quotient (a b : Wide) : Wide := a / b

/-- The remainder `a - q * b` (41_move_arith.md R135). -/
def remainder (a b : Wide) : Wide := a - quotient a b * b

/-- `x[d + 1] <- sext_S(rem)`, only for a Direct destination (41_move_arith.md R135). -/
def storeRemainder (sz : Size) (dst : Operand) (rem : Wide) (s : State) : State :=
  match dst.mode with
  | .direct => s.setReg (dst.reg + 1) (sextSize sz rem)
  | .indirect => s
  | .autoInc => s
  | .autoDec => s

/-- The pseudocode of DIV behind its reserved form (41_move_arith.md R135). -/
def divide (sz : Size) (dst src : Operand) (s : State) : Res Unit :=
  (srcValue sz src s).bind fun b s =>
  let (loc, s) := destLocate sz dst s
  (destRead sz loc s).bind fun a s =>
  if b = 0 then raise .divideError s
  else
    (destWrite sz loc (quotient a b) s).bind fun _ s =>
    let s := destFinish sz dst s
    let s := storeRemainder sz dst (remainder a b) s
    .ok () (s.setFlags (flagsOf .other sz (quotient a b) a b))

/-- DIV (41_move_arith.md R135). The reserved form is refused by the decoder (30_encoding.md R88), so
a step never brings it here; the word it reports is the form's encoding by the machine's own tables
(log entry 11). -/
def execDiv (sz : Size) (dst src : Operand) (s : State) : Host.Outcome State Fault Refusal :=
  if dst.divReserved then
    Res.toOutcome (raise (.unknown (encode s.params.encoding (.div sz dst src))) s)
  else (divide sz dst src s).toOutcome

end Sys2Proof.Machine
end

