-- ==== Sys2Proof/Machine/Traps.lean ====
section
/-! DEFINITION. EMT, BPT, HLT, NOP (46_trap_halt.md R210 to R213) and the trap table that EMT calls
(00_scope.md R6). -/

namespace Sys2Proof.Machine

/-- What a trap of the environment can do to the machine (log entry 5). Flags are left out, since EMT
writes none (10_state.md R30), and so is a fault, since EMT raises none after its fetch
(60_exceptions.md R222). -/
inductive TrapAction where
  /-- Writes a register, R15 included. -/
  | setReg (r : RegId) (v : Word)
  /-- Writes one byte of memory; an address not below `MEM_SIZE` has no byte and is left alone. -/
  | setByte (addr : Word) (b : Byte)
  /-- Appends one byte to the console. -/
  | print (b : Byte)
  deriving DecidableEq, Repr

end Sys2Proof.Machine

namespace Sys2Proof

/-- `TrapTable`, the open parameter (00_scope.md R6): for a trap number and the state at the trap, the
trap's effect, or none where the table is undefined. It has no body: nothing is assumed of it (log
entry 5). It stands here and not in Config.lean because its type names `State`. -/
opaque Config.trapTable : BitVec 24 → Machine.State → Option (List Machine.TrapAction)

end Sys2Proof

namespace Sys2Proof.Machine

/-- One action of a trap, applied to the machine. -/
def applyAction (s : State) : TrapAction → State
  | .setReg r v => s.setReg r v
  | .setByte addr b =>
    if addr.toNat < s.params.memSize then { s with mem := s.mem.set addr.toNat b } else s
  | .print b => s.print b

/-- `apply TrapTable(d24) to the machine` (46_trap_halt.md R210): its actions in order. -/
def applyTrap (acts : List TrapAction) (s : State) : State := acts.foldl applyAction s

/-- EMT (46_trap_halt.md R210). The putchar trap appends bits 7 to 0 of R0 to the console; another
trap has the effect `TrapTable` gives it; where the table is undefined there is no meaning. -/
def execEmt (d : BitVec 24) (s : State) : Host.Outcome State Fault Refusal :=
  if d = s.params.emtPutchar then .next (s.print ((s.reg 0).extractLsb' 0 8))
  else
    match Config.trapTable d s with
    | some acts => .next (applyTrap acts s)
    | none => .refused (.trapUndefined d)

/-- BPT: the outcome is Breakpoint, nothing else changes (46_trap_halt.md R211). -/
def execBpt (s : State) : Host.Outcome State Fault Refusal := .next (s.setOutcome .breakpoint)

/-- HLT: the outcome is Halt, nothing else changes (46_trap_halt.md R212); there is no halted latch
(10_state.md R36). -/
def execHlt (s : State) : Host.Outcome State Fault Refusal := .next (s.setOutcome .halt)

/-- NOP: nothing (46_trap_halt.md R213). -/
def execNop (s : State) : Host.Outcome State Fault Refusal := .next s

end Sys2Proof.Machine
end

