-- ==== Sys2Proof/Machine/Dispatch.lean ====
section
/-! DEFINITION. The dispatcher: one arm for each instruction (40_step_and_operands.md R101). The state
it is given is the one after the fetch, with pc already advanced by 4 (R100). -/

namespace Sys2Proof.Machine

def exec (i : Instr) (s : State) : Host.Outcome State Fault Refusal :=
  match i with
  | .hlt => Sys2Proof.Machine.execHlt s
  | .nop => Sys2Proof.Machine.execNop s
  | .ret => Sys2Proof.Machine.execRet s
  | .bpt => Sys2Proof.Machine.execBpt s
  | .clc => Sys2Proof.Machine.execClc s
  | .clv => Sys2Proof.Machine.execClv s
  | .clz => Sys2Proof.Machine.execClz s
  | .cln => Sys2Proof.Machine.execCln s
  | .sec => Sys2Proof.Machine.execSec s
  | .sev => Sys2Proof.Machine.execSev s
  | .sez => Sys2Proof.Machine.execSez s
  | .sen => Sys2Proof.Machine.execSen s
  | .jmp sz src => Sys2Proof.Machine.execJmp sz src s
  | .jsr sz src => Sys2Proof.Machine.execJsr sz src s
  | .mov sz dst src => Sys2Proof.Machine.execMov sz dst src s
  | .add sz dst src => Sys2Proof.Machine.execAdd sz dst src s
  | .sub sz dst src => Sys2Proof.Machine.execSub sz dst src s
  | .cmp sz dst src => Sys2Proof.Machine.execCmp sz dst src s
  | .mul sz dst src => Sys2Proof.Machine.execMul sz dst src s
  | .div sz dst src => Sys2Proof.Machine.execDiv sz dst src s
  | .and sz dst src => Sys2Proof.Machine.execAnd sz dst src s
  | .or sz dst src => Sys2Proof.Machine.execOr sz dst src s
  | .xor sz dst src => Sys2Proof.Machine.execXor sz dst src s
  | .lsl sz dst src => Sys2Proof.Machine.execLsl sz dst src s
  | .lsr sz dst src => Sys2Proof.Machine.execLsr sz dst src s
  | .asr sz dst src => Sys2Proof.Machine.execAsr sz dst src s
  | .br d => Sys2Proof.Machine.execBr d s
  | .beq d => Sys2Proof.Machine.execBeq d s
  | .bne d => Sys2Proof.Machine.execBne d s
  | .blt d => Sys2Proof.Machine.execBlt d s
  | .bge d => Sys2Proof.Machine.execBge d s
  | .bgt d => Sys2Proof.Machine.execBgt d s
  | .ble d => Sys2Proof.Machine.execBle d s
  | .bhi d => Sys2Proof.Machine.execBhi d s
  | .blos d => Sys2Proof.Machine.execBlos d s
  | .bcc d => Sys2Proof.Machine.execBcc d s
  | .bcs d => Sys2Proof.Machine.execBcs d s
  | .bmi d => Sys2Proof.Machine.execBmi d s
  | .bpl d => Sys2Proof.Machine.execBpl d s
  | .bvs d => Sys2Proof.Machine.execBvs d s
  | .bvc d => Sys2Proof.Machine.execBvc d s
  | .emt d => Sys2Proof.Machine.execEmt d s

end Sys2Proof.Machine
end

