-- ==== Sys2Proof/Machine/Fetch.lean ====
section
/-! DEFINITION. What a step does around `exec` (40_step_and_operands.md R100): the fetch, the advance
of pc, the decoder's refusals; and where a host puts the next instruction (70_reset_and_hazards.md
R251). Step.lean only calls these. -/

namespace Sys2Proof.Machine

/-- `w <- MemRead(A, 4); pc <- (A + 4) mod 2^32` (40_step_and_operands.md R100). If the read faults,
pc still holds A. -/
def fetch (s : State) : Res Word :=
  (memRead .b32 s.pc s).bind fun w s => .ok w (s.setPc (s.pc + 4))

/-- A fetched word, decoded by the machine's own encoding tables (00_scope.md R6) and run: a word that is
no instruction raises Unknown(w) with nothing changed but pc (40_step_and_operands.md R100, R101;
60_exceptions.md R223). -/
def dispatch (w : Word) (s : State) : Host.Outcome State Fault Refusal :=
  match decode s.params.encoding w with
  | .ok i => exec i s
  | .error _ => Res.toOutcome (raise (.unknown w) s)

/-- `RunOneInstr` (40_step_and_operands.md R100). -/
def runOneInstr (s : State) : Host.Outcome State Fault Refusal :=
  match fetch (s.setOutcome .continue) with
  | .ok w s => dispatch w s
  | .stop f => .fault f

/-- Bytes stored one after the other from an address on; there is no byte at or beyond `MEM_SIZE`. -/
def storeBytes (s : State) : Nat → List Byte → State
  | _, [] => s
  | a, b :: rest =>
    storeBytes (if a < s.params.memSize then { s with mem := s.mem.set a b } else s) (a + 1) rest

/-- The state with pc at an address from which a whole word can be fetched: pc as it is where it is a
multiple of 4 below `MEM_SIZE`, else 0. -/
def withFetchablePc (s : State) : State :=
  if s.pc.toNat % 4 = 0 ∧ s.pc.toNat < s.params.memSize then s else s.setPc 0

/-- The state with the low `nbits` bits of `w`, and zeros up to the longest instruction, stored from pc
on: the host's load (log entry 8). -/
def loadAtPc (s : State) (nbits w : Nat) : State :=
  let s := withFetchablePc s
  storeBytes s s.pc.toNat (bytesOf 12 (w % 2 ^ nbits))

end Sys2Proof.Machine
end

