-- ==== Sys2Proof/Machine/Step.lean ====
section
/-! DEFINITION. The step, the only transition of the core (40_step_and_operands.md R100), and the
state with an instruction put where the step fetches. -/

namespace Sys2Proof.Machine

/-- One step: one call of `RunOneInstr` (00_scope.md R10). -/
def step (s : State) : Host.Outcome State Fault Refusal := runOneInstr s

/-- The state in which the next step fetches the instruction whose bits are `w` (log entry 8). -/
def State.withFetchWord (s : State) (nbits w : Nat) : State := loadAtPc s nbits w

end Sys2Proof.Machine
end

