-- ==== Sys2Proof/Safety.lean ====
section
/-! DEFINITION. The words in which claims are stated: the well-formed states, the outcomes of a step
and of a run as the host sees them, what an operand is and what its resolution leaves (in numbers and
bytes, beside the mask-and-shift of the meanings), and the host's breakpoint calls. No meaning uses
them. -/

namespace Sys2Proof.Machine

/-! ## Well-formed states -/

/-- The invariant of the machine: legal parameters (00_scope.md R6), memory in canonical form, and no
byte outside the address space (10_state.md R33). -/
abbrev State.wf (s : State) : Prop :=
  s.params.wf ∧ s.mem.wf ∧ ∀ x ∈ s.mem, x.1 < s.params.memSize

/-! ## Outcomes and runs as the host sees them -/

/-- The six outcomes of a step, with what each carries (60_exceptions.md R220). -/
inductive Report where
  | continue
  | halt
  | breakpoint
  | unknown (word : Word)
  | memFault (addr : Word)
  | divideError
  deriving DecidableEq, Repr

/-- The outcome of a step and the state it left, for each of the six; none where the model gives the
step no meaning (60_exceptions.md R220, R221). -/
def reportOf : Host.Outcome State Fault Refusal → Option (Report × State)
  | .next t =>
    match t.outcome with
    | .continue => some (.continue, t)
    | .halt => some (.halt, t)
    | .breakpoint => some (.breakpoint, t)
  | .fault (.memFault a t) => some (.memFault a, t)
  | .fault (.unknown w t) => some (.unknown w, t)
  | .fault (.divideError t) => some (.divideError, t)
  | .refused _ => none

/-- The host's run with a budget of k steps: it ends at the first step whose outcome is not Continue,
in the state that step left (60_exceptions.md R226); none where the budget or the meaning ends first. -/
def runUntilStop : Nat → State → Option (Report × State)
  | 0, _ => none
  | k + 1, s =>
    match reportOf (step s) with
    | some (.continue, t) => runUntilStop k t
    | r => r

/-! ## Values as numbers -/

/-- `2^S` (40_step_and_operands.md R102). -/
def sizeModulus (sz : Size) : Nat := 2 ^ sizeBits sz

/-- The sign of an S-bit value, its bit S-1 (40_step_and_operands.md R114). -/
def negative (sz : Size) (v : Nat) : Bool := decide (sizeModulus sz / 2 ≤ v)

/-- The S-bit value read as a two's-complement number. -/
def signedValue (sz : Size) (v : Nat) : Int :=
  if negative sz v then (v : Int) - sizeModulus sz else v

/-- The number does not fit in S bits of two's complement. -/
def signedOverflow (sz : Size) (x : Int) : Bool :=
  decide (x < -((sizeModulus sz / 2 : Nat) : Int) ∨ ((sizeModulus sz / 2 : Nat) : Int) ≤ x)

/-- `sext_S(v)` of an S-bit value, by the formula of 00_scope.md R8. -/
def sextNat (sz : Size) (v : Nat) : Word :=
  BitVec.ofNat 32 (if negative sz v then v + 2 ^ 32 - sizeModulus sz else v)

/-- The flags with N and Z of an S-bit result (40_step_and_operands.md R112) and V and C as given. -/
def resultFlags (sz : Size) (r : Nat) (v c : Bool) : Flags :=
  { n := negative sz r, z := decide (r = 0), v := v, c := c }

/-! ## Memory in bytes -/

/-- The number that k bytes from address a on make, the lowest address least significant
(20_memory.md R41). -/
def readBytes (s : State) : Nat → Nat → Nat
  | 0, _ => 0
  | k + 1, a => (s.byte a).toNat + 256 * readBytes s k (a + 1)

/-- How many bytes of an access lie in the word that holds its address: the access is cut there
(20_memory.md R44, R45). -/
def bytesInWord (sz : Size) (a : Nat) : Nat := min (sizeBytes sz) (4 - a % 4)

/-- The value of an access at address a: the bytes that fit, zeros above (20_memory.md R44). -/
def memValue (sz : Size) (a : Nat) (s : State) : Nat := readBytes s (bytesInWord sz a) a

/-- Address a is one of the bytes that a store of this size at address ea replaces (20_memory.md
R45). -/
abbrev storedAt (sz : Size) (ea a : Nat) : Prop := ea ≤ a ∧ a < ea + bytesInWord sz ea

/-- The byte at address a after a store of the number v at address ea (20_memory.md R45). -/
def byteAfterStore (sz : Size) (ea v : Nat) (s : State) (a : Nat) : Byte :=
  if storedAt sz ea a then BitVec.ofNat 8 (v / 256 ^ (a - ea)) else s.byte a

/-- What an access adds to AlignLog (20_memory.md R46). -/
def accessEntry (sz : Size) (ea : Word) : List (Word × Nat) :=
  if ea.toNat % sizeBytes sz ≠ 0 then [(ea, sizeBytes sz)] else []

/-! ## Operands -/

/-- The address that an operand in a memory mode accesses: the register's value, after the decrement
of AutoDecrement (40_step_and_operands.md R104, R105). -/
def operandAddr (sz : Size) (o : Operand) (s : State) : Word :=
  if o.mode = .autoDec then s.reg o.reg - stepOf sz o.reg else s.reg o.reg

/-- The operand can be accessed: it is a register, or its address is below `MEM_SIZE`
(20_memory.md R47). -/
abbrev operandOk (sz : Size) (o : Operand) (s : State) : Prop :=
  o.mode ≠ .direct → (operandAddr sz o s).toNat < s.params.memSize

/-- The operand's value, a number below 2^S (40_step_and_operands.md R104, R106). -/
def operandValue (sz : Size) (o : Operand) (s : State) : Nat :=
  if o.mode = .direct then (s.reg o.reg).toNat % sizeModulus sz
  else memValue sz (operandAddr sz o s).toNat s

/-- What resolving an operand adds to register r (40_step_and_operands.md R103, R104, R109). -/
def sideEffect (sz : Size) (o : Operand) (r : RegId) : Word :=
  if r = o.reg then
    if o.mode = .autoInc then stepOf sz o.reg
    else if o.mode = .autoDec then -stepOf sz o.reg
    else 0
  else 0

/-- What one access to an operand adds to AlignLog. -/
def operandEntry (sz : Size) (o : Operand) (s : State) : List (Word × Nat) :=
  if o.mode = .direct then [] else accessEntry sz (operandAddr sz o s)

/-- The state after a source operand has been resolved without a fault (40_step_and_operands.md
R104). -/
def afterSource (sz : Size) (o : Operand) (s : State) : State :=
  { s.setReg o.reg (s.reg o.reg + sideEffect sz o o.reg) with
    alignLog := s.alignLog ++ operandEntry sz o s }

/-- The state in which the access to an operand happens, and which a fault of that access leaves
behind: AutoDecrement has been done, AutoIncrement has not (40_step_and_operands.md R104, R105). -/
def beforeAccess (sz : Size) (o : Operand) (s : State) : State :=
  if o.mode = .autoDec then stepDown sz o.reg s else s

/-! ## Two-operand instructions -/

/-- A register after the side effects of both operands. -/
def resolvedReg (sz : Size) (dst src : Operand) (s : State) (r : RegId) : Word :=
  s.reg r + sideEffect sz src r + sideEffect sz dst r

/-- What a two-operand instruction that stores the S-bit number v leaves, all but the flags and
AlignLog: a Direct destination holds `sext_S(v)`, a destination in memory holds the bytes of v that
fit in its word, and nothing else changes but the registers that the operands step
(40_step_and_operands.md R107, R109, R110). -/
structure StoresResult (sz : Size) (dst src : Operand) (s : State) (v : Nat) (t : State) : Prop where
  regs : ∀ r, t.reg r =
    if dst.mode = .direct ∧ r = dst.reg then sextNat sz v else resolvedReg sz dst src s r
  bytes : ∀ a, t.byte a =
    if dst.mode = .direct then s.byte a
    else byteAfterStore sz (operandAddr sz dst (afterSource sz src s)).toNat v s a
  console : t.console = s.console
  params : t.params = s.params
  outcome : t.outcome = s.outcome

/-- What a two-operand instruction that stores nothing leaves, all but the flags and AlignLog
(41_move_arith.md R133). -/
structure StoresNothing (sz : Size) (dst src : Operand) (s : State) (t : State) : Prop where
  regs : ∀ r, t.reg r = resolvedReg sz dst src s r
  bytes : ∀ a, t.byte a = s.byte a
  console : t.console = s.console
  params : t.params = s.params
  outcome : t.outcome = s.outcome

/-- What DIV leaves, all but the flags and AlignLog: the quotient as any result, and with a Direct
destination Rd the remainder in R(d+1), written last (41_move_arith.md R135). -/
structure StoresQuotient (sz : Size) (dst src : Operand) (s : State) (q rem : Nat) (t : State) :
    Prop where
  regs : ∀ r, t.reg r =
    if dst.mode = .direct ∧ r = dst.reg + 1 then sextNat sz rem
    else if dst.mode = .direct ∧ r = dst.reg then sextNat sz q
    else resolvedReg sz dst src s r
  bytes : ∀ a, t.byte a =
    if dst.mode = .direct then s.byte a
    else byteAfterStore sz (operandAddr sz dst (afterSource sz src s)).toNat q s a
  console : t.console = s.console
  params : t.params = s.params
  outcome : t.outcome = s.outcome

/-- AlignLog after a two-operand instruction that accesses its destination k times
(20_memory.md R46; 40_step_and_operands.md R110). -/
def logAfter (sz : Size) (dst src : Operand) (s : State) : Nat → List (Word × Nat)
  | 0 => s.alignLog ++ operandEntry sz src s
  | k + 1 => logAfter sz dst src s k ++ operandEntry sz dst (afterSource sz src s)

/-- A source operand that cannot be accessed ends the instruction with MemFault, the state being that
of the access (40_step_and_operands.md R118; 60_exceptions.md R221, R222). -/
abbrev faultsOnSource (run : State → Host.Outcome State Fault Refusal) (sz : Size) (src : Operand)
    (s : State) : Prop :=
  ¬ operandOk sz src s →
    run s = .fault (.memFault (operandAddr sz src s) (beforeAccess sz src s))

/-- So does a destination operand, after the source has been resolved. -/
abbrev faultsOnDestination (run : State → Host.Outcome State Fault Refusal) (sz : Size)
    (dst src : Operand) (s : State) : Prop :=
  operandOk sz src s → ¬ operandOk sz dst (afterSource sz src s) →
    run s = .fault (.memFault (operandAddr sz dst (afterSource sz src s))
      (beforeAccess sz dst (afterSource sz src s)))

/-! ## Classes of instructions -/

/-- The instructions that write a flag (10_state.md R30). -/
def writesFlags : Instr → Bool
  | .clc | .clv | .clz | .cln | .sec | .sev | .sez | .sen => true
  | .mov _ _ _ | .add _ _ _ | .sub _ _ _ | .cmp _ _ _ | .mul _ _ _ | .div _ _ _ => true
  | .and _ _ _ | .or _ _ _ | .xor _ _ _ | .lsl _ _ _ | .lsr _ _ _ | .asr _ _ _ => true
  | .hlt | .nop | .ret | .bpt | .jmp _ _ | .jsr _ _ => false
  | .br _ | .beq _ | .bne _ | .blt _ | .bge _ | .bgt _ | .ble _ | .bhi _ => false
  | .blos _ | .bcc _ | .bcs _ | .bmi _ | .bpl _ | .bvs _ | .bvc _ | .emt _ => false

/-- The instructions that can change a byte of memory: JSR, the two-operand instructions but CMP with
a destination in memory, and EMT with a trap that is not putchar (20_memory.md R42; 46_trap_halt.md
R210). -/
def mayStore (s : State) : Instr → Bool
  | .mov _ dst _ | .add _ dst _ | .sub _ dst _ | .mul _ dst _ | .div _ dst _ => dst.mode != .direct
  | .and _ dst _ | .or _ dst _ | .xor _ dst _ => dst.mode != .direct
  | .lsl _ dst _ | .lsr _ dst _ | .asr _ dst _ => dst.mode != .direct
  | .jsr _ _ => true
  | .emt d => d != s.params.emtPutchar
  | .cmp _ _ _ => false
  | .clc | .clv | .clz | .cln | .sec | .sev | .sez | .sen => false
  | .hlt | .nop | .ret | .bpt | .jmp _ _ => false
  | .br _ | .beq _ | .bne _ | .blt _ | .bge _ | .bgt _ | .ble _ | .bhi _ => false
  | .blos _ | .bcc _ | .bcs _ | .bmi _ | .bpl _ | .bvs _ | .bvc _ => false

/-- The bits of a field of this width whose lowest bit is `lo`. -/
def fieldMask (width lo : Nat) : Word := (BitVec.allOnes width).setWidth 32 <<< lo

/-- The bits of an instruction's word that the decoder reads under an encoding: the fields of the
instruction's class (30_encoding.md R64, R65, R70, R79). -/
def readMask (e : Encoding) : Instr → Word
  | .jmp _ _ | .jsr _ _ =>
    fieldMask 8 e.opLo ||| fieldMask 2 e.szLo ||| fieldMask 2 e.smLo ||| fieldMask 4 e.srLo
  | .mov _ _ _ | .add _ _ _ | .sub _ _ _ | .cmp _ _ _ | .mul _ _ _ | .div _ _ _ | .and _ _ _
  | .or _ _ _ | .xor _ _ _ | .lsl _ _ _ | .lsr _ _ _ | .asr _ _ _ =>
    fieldMask 8 e.opLo ||| fieldMask 2 e.szLo ||| fieldMask 2 e.dmLo ||| fieldMask 2 e.smLo |||
      fieldMask 4 e.drLo ||| fieldMask 4 e.srLo
  | .br _ | .beq _ | .bne _ | .blt _ | .bge _ | .bgt _ | .ble _ | .bhi _ | .blos _ | .bcc _ | .bcs _
  | .bmi _ | .bpl _ | .bvs _ | .bvc _ | .emt _ => fieldMask 8 e.opLo ||| fieldMask 24 e.d24Lo
  | .hlt | .nop | .ret | .bpt | .clc | .clv | .clz | .cln | .sec | .sev | .sez | .sen =>
    fieldMask 8 e.opLo

/-- The same bits under the spec's own encoding, as numbers (30_encoding.md R64, R70, R79). -/
def readBits : Instr → Word
  | .jmp _ _ | .jsr _ _ => 0x003C33FF
  | .mov _ _ _ | .add _ _ _ | .sub _ _ _ | .cmp _ _ _ | .mul _ _ _ | .div _ _ _ => 0x003FFFFF
  | .and _ _ _ | .or _ _ _ | .xor _ _ _ | .lsl _ _ _ | .lsr _ _ _ | .asr _ _ _ => 0x003FFFFF
  | .br _ | .beq _ | .bne _ | .blt _ | .bge _ | .bgt _ | .ble _ | .bhi _ => 0xFFFFFFFF
  | .blos _ | .bcc _ | .bcs _ | .bmi _ | .bpl _ | .bvs _ | .bvc _ | .emt _ => 0xFFFFFFFF
  | .hlt | .nop | .ret | .bpt => 0x000000FF
  | .clc | .clv | .clz | .cln | .sec | .sev | .sez | .sen => 0x000000FF

/-- The opcode byte of an instruction's word under the spec's own encoding (30_encoding.md R61, R66). -/
def specOpcode (i : Instr) : Byte := opcodeOf Encoding.spec (encode Encoding.spec i)

/-- Under the spec's own encoding every word with this opcode byte is the instruction: bits 31:8 are
ignored (30_encoding.md R64). -/
abbrev decodesByOpcode (op : Byte) (i : Instr) : Prop :=
  ∀ w : Word, opcodeOf Encoding.spec w = op → decode Encoding.spec w = .ok i

/-- Under the spec's own encoding every word with this opcode byte and a size that is not reserved is the
one-operand instruction on its source fields: the destination fields and bits 31:22 are ignored
(30_encoding.md R70, R79). -/
abbrev decodesBySource (op : Byte) (mk : Size → Operand → Instr) : Prop :=
  ∀ (w : Word) (sz : Size), opcodeOf Encoding.spec w = op → sizeOf? Encoding.spec w = .ok sz →
    decode Encoding.spec w = .ok (mk sz (srcOf Encoding.spec w))

/-- The words that are no instruction, by the numbers of the spec's own tables: the opcode bytes that
the map leaves out (30_encoding.md R74), size code 3 in an operand class (R75), DIV with a Direct
destination R15 (R88). -/
def reservedWord (w : Word) : Prop :=
  let op := w.toNat % 256
  (0x0C ≤ op ∧ op ≤ 0x0F) ∨ (0x12 ≤ op ∧ op ≤ 0x1F) ∨ (0x2C ≤ op ∧ op ≤ 0x3F) ∨ op = 0x4F ∨ 0x51 ≤ op
    ∨ ((0x10 ≤ op ∧ op ≤ 0x11 ∨ 0x20 ≤ op ∧ op ≤ 0x2B) ∧ w.toNat / 2 ^ 8 % 4 = 3)
    ∨ (op = 0x25 ∧ w.toNat / 2 ^ 10 % 4 = 0 ∧ w.toNat / 2 ^ 14 % 16 = 15)

/-! ## Branches -/

/-- BR and the branches on equality and on the signed order, with their opcodes and their conditions
on N, Z, V, as 45_branches.md R191 to R197 give them. -/
def orderBranches : List ((BitVec 24 → Instr) × Nat × (Flags → Prop)) :=
  [(.br, 0x40, fun _ => True),
   (.beq, 0x41, fun f => f.z = true),
   (.bne, 0x42, fun f => f.z = false),
   (.blt, 0x43, fun f => f.n ≠ f.v),
   (.bge, 0x44, fun f => f.n = f.v),
   (.bgt, 0x45, fun f => f.z = false ∧ f.n = f.v),
   (.ble, 0x46, fun f => f.z = true ∨ f.n ≠ f.v)]

/-- The branches on the unsigned order and on a single flag, with their opcodes and their conditions on
N, Z, V, C, as 45_branches.md R198 to R205 give them. -/
def flagBranches : List ((BitVec 24 → Instr) × Nat × (Flags → Prop)) :=
  [(.bhi, 0x47, fun f => f.c = false ∧ f.z = false),
   (.blos, 0x48, fun f => f.c = true ∨ f.z = true),
   (.bcc, 0x49, fun f => f.c = false),
   (.bcs, 0x4A, fun f => f.c = true),
   (.bmi, 0x4B, fun f => f.n = true),
   (.bpl, 0x4C, fun f => f.n = false),
   (.bvs, 0x4D, fun f => f.v = true),
   (.bvc, 0x4E, fun f => f.v = false)]

/-- The common rule of the branches (45_branches.md R190): under the spec's own encoding the word is
the opcode with d24 above it; where the condition holds, pc takes pc plus the signed byte displacement
modulo 2^32, else nothing changes; no other part of the state changes either way. -/
abbrev branchesOn (branch : BitVec 24 → Instr) (op : Nat) (cond : Flags → Prop) (d : BitVec 24)
    (s : State) : Prop :=
  (encode Encoding.spec (branch d)).toNat = op + 256 * d.toNat ∧
  (cond s.flags → exec (branch d) s =
    .next (s.setPc (BitVec.ofInt 32 ((s.pc.toNat : Int) + d.toInt)))) ∧
  (¬ cond s.flags → exec (branch d) s = .next s)

/-! ## The host's breakpoints -/

/-- `Set(addr)`: the word at addr is overwritten with a BPT, encoded by
the machine's own tables (60_exceptions.md R235). -/
def setBreakpoint (addr : Word) (s : State) : State :=
  { s with mem := s.mem.setWord (addr.toNat / 4) (encode s.params.encoding .bpt) }

/-- `Clear(addr)`: the saved word is restored (60_exceptions.md R235). -/
def clearBreakpoint (addr saved : Word) (s : State) : State :=
  { s with mem := s.mem.setWord (addr.toNat / 4) saved }

end Sys2Proof.Machine
end

