-- ==== Sys2Proof/Certificates/Slice0/Obligations.lean ====
section
/-! DEFINITION. The statements for the provers. `exec` runs on the state after the fetch: its pc is the
address of the instruction word plus 4 (40_step_and_operands.md R100). Where a statement is about a
two-operand instruction, `afterSource sz src s` is the state in which the destination is located. -/

open Sys2Proof Sys2Proof.Machine

/-! ## Reset, encoding, step -/

/-- The reset state is well formed and has the spec's own encoding tables (00_scope.md R6). That it is all
zeros is the model's choice (log entries 1 to 4); the spec states only that Console and AlignLog are
empty (10_state.md R37). -/
def Obligations.ResetStateIsWellFormed : Prop :=
  State.reset.wf ∧ State.reset.console = [] ∧ State.reset.alignLog = [] ∧
  State.reset.params.encoding = Encoding.spec

/-- Under the spec's own encoding the words of the table of 30_encoding.md R87, as bytes in memory, decode
to the instructions they stand for and leave the trailing bytes, and encode to them; two words of
95_test_vectors.md with ignored bits set decode as if those were clear. -/
def Obligations.SampleWordsDecode : Prop :=
  let e := Encoding.spec
  decodeBytes e [0x21, 0x42, 0x00, 0x00] = .ok (.add .b32 ⟨.direct, 1⟩ ⟨.direct, 0⟩, []) ∧
  decodeBytes e [0x40, 0xF8, 0xFF, 0xFF] = .ok (.br (BitVec.ofInt 24 (-8)), []) ∧
  decodeBytes e [0x20, 0x62, 0x3C, 0x00, 0x07, 0x00, 0x00, 0x00] =
    .ok (.mov .b32 ⟨.direct, 1⟩ ⟨.autoInc, 15⟩, [0x07, 0x00, 0x00, 0x00]) ∧
  decodeBytes e [0x10, 0x22, 0x3C, 0x00] = .ok (.jmp .b32 ⟨.autoInc, 15⟩, []) ∧
  decodeBytes e [0x20, 0x8C, 0x0F, 0x00] = .ok (.mov .b8 ⟨.autoDec, 14⟩ ⟨.direct, 3⟩, []) ∧
  decodeBytes e [0x00, 0x00, 0x00, 0x00] = .ok (.hlt, []) ∧
  encode e (.mov .b8 ⟨.autoDec, 14⟩ ⟨.direct, 3⟩) = 0x000F8C20 ∧
  encode e (.br (BitVec.ofInt 24 (-8))) = 0xFFFFF840 ∧
  decode e 0xFFC04221 = decode e 0x00004221 ∧
  decode e 0xABCDEF00 = .ok .hlt

/-- Encode then decode is the identity, under every legal encoding, for every well-formed instruction
and every value of its fields (30_encoding.md R73; 00_scope.md R6). -/
def Obligations.DecodeOfEncodeIsTheInstruction : Prop :=
  ∀ e : Encoding, e.wf → ∀ i : Instr, i.wellFormed = true → decode e (encode e i) = .ok i

/-- Decode then encode, under every legal encoding, clears the bits that the decoder ignores and keeps
all others, and what the decoder answers is well formed (30_encoding.md R73); under the spec's own
encoding the bits kept are those of the spec's layouts (30_encoding.md R64, R70, R79). -/
def Obligations.EncodeOfDecodeClearsIgnoredBits : Prop :=
  (∀ e : Encoding, e.wf → ∀ (w : Word) (i : Instr), decode e w = .ok i →
    encode e i = w &&& readMask e i ∧ i.wellFormed = true) ∧
  ∀ i : Instr, readMask Encoding.spec i = readBits i

/-- Under the spec's own encoding the decoder refuses exactly the reserved words (30_encoding.md R74,
R75, R88), and a step that fetches one ends with Unknown(w), pc advanced by 4 and nothing else changed
but the alignment report of the fetch. -/
def Obligations.ReservedWordsAreUnknown : Prop :=
  ∀ w : Word,
    ((∃ err, decode Encoding.spec w = .error err) ↔ reservedWord w) ∧
    ∀ s s' : State, s.params.encoding = Encoding.spec →
      memRead .b32 s.pc (s.setOutcome .continue) = .ok w s' → reservedWord w →
      step s = .fault (.unknown w
        (((s.setOutcome .continue).logAccess .b32 s.pc).setPc (s.pc + 4)))

/-- A step fetches the four bytes at pc as a little-endian word (cut at the word's end where pc is not
a multiple of 4), advances pc by 4, decodes by the machine's own encoding tables, and runs the
instruction or raises Unknown; where pc is outside memory it raises MemFault(pc) with pc not advanced (40_step_and_operands.md R100). -/
def Obligations.StepFetchesDecodesAndRuns : Prop :=
  ∀ s : State,
    let s0 := s.setOutcome .continue
    let w := BitVec.ofNat 32 (memValue .b32 s.pc.toNat s)
    let s1 := (s0.logAccess .b32 s.pc).setPc (s.pc + 4)
    (s.params.memSize ≤ s.pc.toNat → step s = .fault (.memFault s.pc s0)) ∧
    (s.pc.toNat < s.params.memSize →
      (∀ i, decode s.params.encoding w = .ok i → step s = exec i s1) ∧
      (∀ err, decode s.params.encoding w = .error err → step s = .fault (.unknown w s1)))

/-- Every step from a well-formed state, whatever its outcome, leaves a well-formed state: the
parameters stay legal, memory keeps its canonical form and no byte appears outside it. -/
def Obligations.StepKeepsStateWellFormed : Prop :=
  ∀ s : State, s.wf →
    (∀ t, step s = .next t → t.wf) ∧ (∀ f, step s = .fault f → (leftBehind f).wf)

/-- No step changes the machine's parameters, the encoding tables among them, and Console and AlignLog
only grow, whatever the outcome (10_state.md R34, R35). -/
def Obligations.StreamsOnlyGrow : Prop :=
  ∀ s t : State, (step s = .next t ∨ ∃ f, step s = .fault f ∧ leftBehind f = t) →
    t.params = s.params ∧ s.console <+: t.console ∧ s.alignLog <+: t.alignLog

/-- A step's outcome is Halt exactly for a HLT word and Breakpoint exactly for a BPT word
(60_exceptions.md R220); under the spec's own encoding, exactly where the opcode byte fetched is 0x00 or
0x03. -/
def Obligations.OutcomesComeFromHltAndBptOnly : Prop :=
  ∀ s t : State, step s = .next t →
    let e := s.params.encoding
    let w := BitVec.ofNat 32 (memValue .b32 s.pc.toNat s)
    (t.outcome = .halt ↔ decode e w = .ok .hlt) ∧
    (t.outcome = .breakpoint ↔ decode e w = .ok .bpt) ∧
    (e = Encoding.spec →
      (t.outcome = .halt ↔ (s.byte s.pc.toNat).toNat = 0x00) ∧
      (t.outcome = .breakpoint ↔ (s.byte s.pc.toNat).toNat = 0x03))

/-- No instruction outside the twelve of the ALU class and the eight flag instructions writes a flag,
and no instruction that faults has written one (10_state.md R30, 40_step_and_operands.md R115). -/
def Obligations.FlagsAreWrittenOnlyByTheirInstructions : Prop :=
  ∀ (i : Instr) (s : State),
    (∀ t, writesFlags i = false → exec i s = .next t → t.flags = s.flags) ∧
    (∀ f, exec i s = .fault f → (leftBehind f).flags = s.flags)

/-- Only JSR, EMT with a trap other than putchar, and the two-operand instructions but CMP with a
destination in memory change a byte of memory, and no instruction that faults has changed one. -/
def Obligations.MemoryIsWrittenOnlyByStores : Prop :=
  ∀ (i : Instr) (s : State),
    (∀ t, mayStore s i = false → exec i s = .next t → ∀ a, t.byte a = s.byte a) ∧
    (∀ f, exec i s = .fault f → ∀ a, (leftBehind f).byte a = s.byte a)

/-! ## Memory -/

/-- MemRead: the value is the number that the bytes from the address to the end of its word make,
little-endian, at most n of them and zeros above; a misaligned address is reported and nothing else
changes; an address outside memory raises MemFault and changes nothing (20_memory.md R44). -/
def Obligations.MemReadReturnsTheBytesThatFit : Prop :=
  ∀ (sz : Size) (a : Word) (s : State),
    (a.toNat < s.params.memSize →
      memRead sz a s = .ok (BitVec.ofNat 32 (memValue sz a.toNat s))
        { s with alignLog := s.alignLog ++ accessEntry sz a }) ∧
    (s.params.memSize ≤ a.toNat → memRead sz a s = .stop (.memFault a s))

/-- MemWrite: the low bytes of the value replace the bytes from the address to the end of its word, at
most n of them, every other byte keeps its value, and nothing else changes but the report of a
misaligned address; an address outside memory raises MemFault and changes nothing (20_memory.md
R45). -/
def Obligations.MemWriteStoresTheBytesThatFit : Prop :=
  ∀ (sz : Size) (a v : Word) (s : State),
    (a.toNat < s.params.memSize →
      ∃ m, memWrite sz a v s =
          .ok () { s with mem := m, alignLog := s.alignLog ++ accessEntry sz a } ∧
        ∀ b, Memory.get m b = byteAfterStore sz a.toNat v.toNat s b) ∧
    (s.params.memSize ≤ a.toNat → memWrite sz a v s = .stop (.memFault a s))

/-- What accesses of each width and offset see after a 32-bit store, and that word after a byte store
into it (20_memory.md R48). -/
def Obligations.MixedWidthAccesses : Prop :=
  ∀ (a : Word) (s : State), a.toNat % 4 = 0 → a.toNat + 3 < s.params.memSize →
    s.params.memSize ≤ 2 ^ 32 →
    ∃ t, memWrite .b32 a 0x11223344 s = .ok () t ∧
      (∃ u, memRead .b8 a t = .ok 0x44 u) ∧ (∃ u, memRead .b8 (a + 1) t = .ok 0x33 u) ∧
      (∃ u, memRead .b8 (a + 2) t = .ok 0x22 u) ∧ (∃ u, memRead .b8 (a + 3) t = .ok 0x11 u) ∧
      (∃ u, memRead .b16 a t = .ok 0x3344 u) ∧ (∃ u, memRead .b16 (a + 2) t = .ok 0x1122 u) ∧
      (∃ u, memRead .b16 (a + 1) t = .ok 0x2233 u) ∧ (∃ u, memRead .b16 (a + 3) t = .ok 0x0011 u) ∧
      (∃ u, memRead .b32 (a + 1) t = .ok 0x00112233 u) ∧
      ∃ t', memWrite .b8 (a + 1) 0xAB t = .ok () t' ∧ ∃ u, memRead .b32 a t' = .ok 0x1122AB44 u

/-! ## Operands -/

/-- The step of AutoIncrement and AutoDecrement (40_step_and_operands.md R103): 4 on R14 and R15
whatever the size, else 1, 2 or 4 by size; the register moves modulo 2^32 and no other does; the access
itself moves n bytes, on R14 and R15 as on any other. -/
def Obligations.RegisterStepBySizeAndRegister : Prop :=
  (∀ sz : Size, stepOf sz 14 = 4 ∧ stepOf sz 15 = 4) ∧
  (∀ r : RegId, r.val < 14 → stepOf .b8 r = 1 ∧ stepOf .b16 r = 2 ∧ stepOf .b32 r = 4) ∧
  (∀ (sz : Size) (r r' : RegId) (s : State),
    (stepUp sz r s).reg r' = s.reg r' + (if r' = r then stepOf sz r else 0) ∧
    (stepDown sz r s).reg r' = s.reg r' - (if r' = r then stepOf sz r else 0)) ∧
  (∀ (sz : Size) (r : RegId) (s : State),
    ((s.reg r).toNat < s.params.memSize → ∃ b t, srcValue sz ⟨.autoInc, r⟩ s = .ok b t ∧
      b.toNat = memValue sz (s.reg r).toNat s ∧ t.reg r = s.reg r + stepOf sz r) ∧
    ((s.reg r - stepOf sz r).toNat < s.params.memSize → ∃ b t,
      srcValue sz ⟨.autoDec, r⟩ s = .ok b t ∧
      b.toNat = memValue sz (s.reg r - stepOf sz r).toNat s ∧ t.reg r = s.reg r - stepOf sz r))

/-- A source operand in each mode: its zero-extended value, the register step before or after the
access, the report of a misaligned access, nothing else changed; and the state a fault leaves
(40_step_and_operands.md R104). -/
def Obligations.SourceOperandByMode : Prop :=
  ∀ (sz : Size) (o : Operand) (s : State),
    (operandOk sz o s → ∃ b, srcValue sz o s = .ok b (afterSource sz o s) ∧
      b.toNat = operandValue sz o s ∧ b.toNat < sizeModulus sz) ∧
    (¬ operandOk sz o s →
      srcValue sz o s = .stop (.memFault (operandAddr sz o s) (beforeAccess sz o s)))

/-- A result stored to a register is sign-extended from S bits over all 32, and no other register
changes; a result stored to memory changes n bytes at most, is not extended, and changes no register;
CMP stores nothing (40_step_and_operands.md R107). -/
def Obligations.RegisterStoresSignExtendMemoryStoresDoNot : Prop :=
  (∀ (sz : Size) (r : Wide) (s : State), r.toNat < sizeModulus sz →
    (∀ d : RegId, ∃ t, destWrite sz (.reg d) r s = .ok () t ∧
      (∀ x, t.reg x = if x = d then sextNat sz r.toNat else s.reg x) ∧
      (∀ a, t.byte a = s.byte a) ∧ t.flags = s.flags ∧ t.alignLog = s.alignLog) ∧
    (∀ ea : Word, ea.toNat < s.params.memSize →
      ∃ t, destWrite sz (.mem ea) r s = .ok () t ∧ (∀ x, t.reg x = s.reg x) ∧
        (∀ a, t.byte a = byteAfterStore sz ea.toNat r.toNat s a) ∧ t.flags = s.flags ∧
        t.alignLog = s.alignLog ++ accessEntry sz ea)) ∧
  ∀ (sz : Size) (dst src : Operand) (s t : State), exec (.cmp sz dst src) s = .next t →
    StoresNothing sz dst src s t

/-! ## Data movement and arithmetic -/

/-- MOV: the source operand's value is stored; N and Z from it, V and C cleared (41_move_arith.md
R130). -/
def Obligations.MovStoresTheSource : Prop :=
  ∀ (sz : Size) (dst src : Operand) (s : State),
    let b := operandValue sz src s
    specOpcode (.mov sz dst src) = 0x20 ∧
    (operandOk sz src s → operandOk sz dst (afterSource sz src s) →
      ∃ t, exec (.mov sz dst src) s = .next t ∧ StoresResult sz dst src s b t ∧
        t.flags = resultFlags sz b false false ∧ t.alignLog = logAfter sz dst src s 1) ∧
    faultsOnSource (exec (.mov sz dst src)) sz src s ∧
    faultsOnDestination (exec (.mov sz dst src)) sz dst src s

/-- ADD: destination plus source modulo 2^S is stored; C is the carry out, V is set when the operands
share sign and the result's sign differs from theirs, which is signed overflow (41_move_arith.md
R131). -/
def Obligations.AddStoresTheSum : Prop :=
  ∀ (sz : Size) (dst src : Operand) (s : State),
    let a := operandValue sz dst (afterSource sz src s)
    let b := operandValue sz src s
    let r := (a + b) % sizeModulus sz
    let v := negative sz a == negative sz b && negative sz r != negative sz a
    specOpcode (.add sz dst src) = 0x21 ∧
    (operandOk sz src s → operandOk sz dst (afterSource sz src s) →
      ∃ t, exec (.add sz dst src) s = .next t ∧ StoresResult sz dst src s r t ∧
        t.flags = resultFlags sz r v (decide (sizeModulus sz ≤ a + b)) ∧
        v = signedOverflow sz (signedValue sz a + signedValue sz b) ∧
        t.alignLog = logAfter sz dst src s 2) ∧
    faultsOnSource (exec (.add sz dst src)) sz src s ∧
    faultsOnDestination (exec (.add sz dst src)) sz dst src s

/-- SUB: destination minus source modulo 2^S is stored; C is the borrow, V is set when the operands
differ in sign and the result's sign equals the source's, which is signed overflow (41_move_arith.md
R132). -/
def Obligations.SubStoresTheDifference : Prop :=
  ∀ (sz : Size) (dst src : Operand) (s : State),
    let a := operandValue sz dst (afterSource sz src s)
    let b := operandValue sz src s
    let r := (a + sizeModulus sz - b) % sizeModulus sz
    let v := negative sz a != negative sz b && negative sz r == negative sz b
    specOpcode (.sub sz dst src) = 0x22 ∧
    (operandOk sz src s → operandOk sz dst (afterSource sz src s) →
      ∃ t, exec (.sub sz dst src) s = .next t ∧ StoresResult sz dst src s r t ∧
        t.flags = resultFlags sz r v (decide (a < b)) ∧
        v = signedOverflow sz (signedValue sz a - signedValue sz b) ∧
        t.alignLog = logAfter sz dst src s 2) ∧
    faultsOnSource (exec (.sub sz dst src)) sz src s ∧
    faultsOnDestination (exec (.sub sz dst src)) sz dst src s

/-- CMP: nothing is stored; N, Z and C as after SUB, V set when the operands differ in sign and the
result's sign equals the destination's (41_move_arith.md R133). -/
def Obligations.CmpSetsFlagsOnly : Prop :=
  ∀ (sz : Size) (dst src : Operand) (s : State),
    let a := operandValue sz dst (afterSource sz src s)
    let b := operandValue sz src s
    let r := (a + sizeModulus sz - b) % sizeModulus sz
    let v := negative sz a != negative sz b && negative sz r == negative sz a
    specOpcode (.cmp sz dst src) = 0x23 ∧
    (operandOk sz src s → operandOk sz dst (afterSource sz src s) →
      ∃ t, exec (.cmp sz dst src) s = .next t ∧ StoresNothing sz dst src s t ∧
        t.flags = resultFlags sz r v (decide (a < b)) ∧
        t.alignLog = logAfter sz dst src s 1) ∧
    faultsOnSource (exec (.cmp sz dst src)) sz src s ∧
    faultsOnDestination (exec (.cmp sz dst src)) sz dst src s

/-- MUL: the low S bits of the unsigned product are stored; C is bit S of the full product, V is
cleared (41_move_arith.md R134). -/
def Obligations.MulStoresTheLowProduct : Prop :=
  ∀ (sz : Size) (dst src : Operand) (s : State),
    let a := operandValue sz dst (afterSource sz src s)
    let b := operandValue sz src s
    let r := a * b % sizeModulus sz
    specOpcode (.mul sz dst src) = 0x24 ∧
    (operandOk sz src s → operandOk sz dst (afterSource sz src s) →
      ∃ t, exec (.mul sz dst src) s = .next t ∧ StoresResult sz dst src s r t ∧
        t.flags = resultFlags sz r false (decide (a * b / sizeModulus sz % 2 = 1)) ∧
        t.alignLog = logAfter sz dst src s 2) ∧
    faultsOnSource (exec (.mul sz dst src)) sz src s ∧
    faultsOnDestination (exec (.mul sz dst src)) sz dst src s

/-- DIV by a divisor that is not 0: the unsigned quotient is stored and, with a Direct destination Rd,
the remainder in R(d+1); N and Z from the quotient, V and C cleared. A zero divisor raises
DivideError, the side effects of the operands' resolution made and nothing written; a Direct
destination R15 raises Unknown before any operand is touched (41_move_arith.md R135). That the word
which exec reports for this last form is the form's own encoding is the model's choice (log entry 11):
a step never brings the form to exec and reports the word it fetched. -/
def Obligations.DivStoresQuotientAndRemainder : Prop :=
  ∀ (sz : Size) (dst src : Operand) (s : State),
    let a := operandValue sz dst (afterSource sz src s)
    let b := operandValue sz src s
    let reserved := dst.mode = .direct ∧ dst.reg = 15
    specOpcode (.div sz dst src) = 0x25 ∧
    (¬ reserved → operandOk sz src s → operandOk sz dst (afterSource sz src s) → b ≠ 0 →
      ∃ t, exec (.div sz dst src) s = .next t ∧ StoresQuotient sz dst src s (a / b) (a % b) t ∧
        t.flags = resultFlags sz (a / b) false false ∧ t.alignLog = logAfter sz dst src s 2) ∧
    (¬ reserved → operandOk sz src s → operandOk sz dst (afterSource sz src s) → b = 0 →
      exec (.div sz dst src) s = .fault (.divideError
        { beforeAccess sz dst (afterSource sz src s) with
          alignLog := logAfter sz dst src s 1 })) ∧
    (¬ reserved → faultsOnSource (exec (.div sz dst src)) sz src s ∧
      faultsOnDestination (exec (.div sz dst src)) sz dst src s) ∧
    (reserved → exec (.div sz dst src) s = .fault (.unknown (encode s.params.encoding (.div sz dst src)) s))

/-! ## Bitwise and shift -/

/-- AND, OR, XOR: the bitwise result is stored, bit by bit that of the operands; N and Z from it, V
and C cleared (42_logic_shift.md R150, R151, R152). -/
def Obligations.AndOrXorStoreTheBitwiseResult : Prop :=
  ∀ (sz : Size) (dst src : Operand) (s : State),
    let a := operandValue sz dst (afterSource sz src s)
    let b := operandValue sz src s
    (specOpcode (.and sz dst src) = 0x26 ∧ specOpcode (.or sz dst src) = 0x27 ∧
      specOpcode (.xor sz dst src) = 0x28) ∧
    (operandOk sz src s → operandOk sz dst (afterSource sz src s) →
      (∃ t, exec (.and sz dst src) s = .next t ∧ StoresResult sz dst src s (a &&& b) t ∧
        t.flags = resultFlags sz (a &&& b) false false ∧ t.alignLog = logAfter sz dst src s 2) ∧
      (∃ t, exec (.or sz dst src) s = .next t ∧ StoresResult sz dst src s (a ||| b) t ∧
        t.flags = resultFlags sz (a ||| b) false false ∧ t.alignLog = logAfter sz dst src s 2) ∧
      (∃ t, exec (.xor sz dst src) s = .next t ∧ StoresResult sz dst src s (a ^^^ b) t ∧
        t.flags = resultFlags sz (a ^^^ b) false false ∧ t.alignLog = logAfter sz dst src s 2)) ∧
    (faultsOnSource (exec (.and sz dst src)) sz src s ∧
      faultsOnSource (exec (.or sz dst src)) sz src s ∧
      faultsOnSource (exec (.xor sz dst src)) sz src s) ∧
    (faultsOnDestination (exec (.and sz dst src)) sz dst src s ∧
      faultsOnDestination (exec (.or sz dst src)) sz dst src s ∧
      faultsOnDestination (exec (.xor sz dst src)) sz dst src s)

/-- LSL: the destination times 2^k modulo 2^S is stored, k the whole source operand; C is the last bit
shifted out for 1 <= k <= S and 0 for k = 0 and k > S; V is cleared (42_logic_shift.md R153). -/
def Obligations.LslShiftsLeft : Prop :=
  ∀ (sz : Size) (dst src : Operand) (s : State),
    let a := operandValue sz dst (afterSource sz src s)
    let k := operandValue sz src s
    let r := a * 2 ^ k % sizeModulus sz
    let c := decide (1 ≤ k ∧ k ≤ sizeBits sz) && a.testBit (sizeBits sz - k)
    specOpcode (.lsl sz dst src) = 0x29 ∧
    (operandOk sz src s → operandOk sz dst (afterSource sz src s) →
      ∃ t, exec (.lsl sz dst src) s = .next t ∧ StoresResult sz dst src s r t ∧
        t.flags = resultFlags sz r false c ∧ t.alignLog = logAfter sz dst src s 2) ∧
    faultsOnSource (exec (.lsl sz dst src)) sz src s ∧
    faultsOnDestination (exec (.lsl sz dst src)) sz dst src s

/-- LSR: the destination divided by 2^k is stored, 0 from k = S on; V and C are cleared
(42_logic_shift.md R154). -/
def Obligations.LsrShiftsZerosIn : Prop :=
  ∀ (sz : Size) (dst src : Operand) (s : State),
    let a := operandValue sz dst (afterSource sz src s)
    let k := operandValue sz src s
    let r := a / 2 ^ k
    specOpcode (.lsr sz dst src) = 0x2A ∧
    (operandOk sz src s → operandOk sz dst (afterSource sz src s) →
      ∃ t, exec (.lsr sz dst src) s = .next t ∧ StoresResult sz dst src s r t ∧
        t.flags = resultFlags sz r false false ∧ t.alignLog = logAfter sz dst src s 2) ∧
    faultsOnSource (exec (.lsr sz dst src)) sz src s ∧
    faultsOnDestination (exec (.lsr sz dst src)) sz dst src s

/-- ASR: the destination as a signed number, divided by 2^k and rounded toward minus infinity, is
stored modulo 2^S; V and C are cleared (42_logic_shift.md R155). -/
def Obligations.AsrShiftsTheSignIn : Prop :=
  ∀ (sz : Size) (dst src : Operand) (s : State),
    let a := operandValue sz dst (afterSource sz src s)
    let k := operandValue sz src s
    let r := ((signedValue sz a / (2 ^ k : Nat)) % sizeModulus sz).toNat
    specOpcode (.asr sz dst src) = 0x2B ∧
    (operandOk sz src s → operandOk sz dst (afterSource sz src s) →
      ∃ t, exec (.asr sz dst src) s = .next t ∧ StoresResult sz dst src s r t ∧
        t.flags = resultFlags sz r false false ∧ t.alignLog = logAfter sz dst src s 2) ∧
    faultsOnSource (exec (.asr sz dst src)) sz src s ∧
    faultsOnDestination (exec (.asr sz dst src)) sz dst src s

/-! ## Flag instructions -/

/-- Each of the eight writes its flag and nothing else; its opcode byte alone selects it
(43_flag_ops.md R170 to R177). -/
def Obligations.FlagInstructionsWriteOneFlag : Prop :=
  ∀ s : State,
    exec .clc s = .next { s with flags := { s.flags with c := false } } ∧
    exec .clv s = .next { s with flags := { s.flags with v := false } } ∧
    exec .clz s = .next { s with flags := { s.flags with z := false } } ∧
    exec .cln s = .next { s with flags := { s.flags with n := false } } ∧
    exec .sec s = .next { s with flags := { s.flags with c := true } } ∧
    exec .sev s = .next { s with flags := { s.flags with v := true } } ∧
    exec .sez s = .next { s with flags := { s.flags with z := true } } ∧
    exec .sen s = .next { s with flags := { s.flags with n := true } } ∧
    decodesByOpcode 0x04 .clc ∧ decodesByOpcode 0x05 .clv ∧ decodesByOpcode 0x06 .clz ∧
    decodesByOpcode 0x07 .cln ∧ decodesByOpcode 0x08 .sec ∧ decodesByOpcode 0x09 .sev ∧
    decodesByOpcode 0x0A .sez ∧ decodesByOpcode 0x0B .sen

/-! ## Control transfer -/

/-- JMP: pc takes the operand's value, zero-extended; the operand's side effect and report happen and
nothing else changes (44_control_transfer.md R180). -/
def Obligations.JmpGoesToTheOperandsValue : Prop :=
  ∀ (sz : Size) (src : Operand) (s : State),
    decodesBySource 0x10 .jmp ∧ specOpcode (.jmp sz src) = 0x10 ∧
    (operandOk sz src s →
      exec (.jmp sz src) s = .next
        ((afterSource sz src s).setPc (BitVec.ofNat 32 (operandValue sz src s)))) ∧
    faultsOnSource (exec (.jmp sz src)) sz src s

/-- JSR: the operand is resolved, SP decreased by 4, the pc that then stands stored at SP, and pc takes
the operand's value; where the push is outside memory, MemFault with SP decreased and pc not yet the
target (44_control_transfer.md R181). -/
def Obligations.JsrPushesPcAndJumps : Prop :=
  ∀ (sz : Size) (src : Operand) (s : State),
    let s1 := afterSource sz src s
    let sp := s1.sp - 4
    decodesBySource 0x11 .jsr ∧ specOpcode (.jsr sz src) = 0x11 ∧
    (operandOk sz src s → sp.toNat < s.params.memSize →
      ∃ t, exec (.jsr sz src) s = .next t ∧ t.pc = BitVec.ofNat 32 (operandValue sz src s) ∧
        t.sp = sp ∧ (∀ r, r ≠ 14 → r ≠ 15 → t.reg r = s1.reg r) ∧
        (∀ a, t.byte a = byteAfterStore .b32 sp.toNat s1.pc.toNat s a) ∧
        t.flags = s.flags ∧ t.console = s.console ∧ t.params = s.params ∧ t.outcome = s.outcome ∧
        t.alignLog = s1.alignLog ++ accessEntry .b32 sp) ∧
    (operandOk sz src s → s.params.memSize ≤ sp.toNat →
      exec (.jsr sz src) s = .fault (.memFault sp (s1.setSp sp))) ∧
    faultsOnSource (exec (.jsr sz src)) sz src s

/-- RET: pc takes the word at SP, SP is increased by 4 and nothing else changes; where SP is outside
memory, MemFault with SP and pc unchanged (44_control_transfer.md R182). -/
def Obligations.RetPopsPc : Prop :=
  ∀ s : State,
    decodesByOpcode 0x02 .ret ∧
    (s.sp.toNat < s.params.memSize →
      exec .ret s = .next { (s.setSp (s.sp + 4)).setPc (BitVec.ofNat 32 (memValue .b32 s.sp.toNat s))
        with alignLog := s.alignLog ++ accessEntry .b32 s.sp }) ∧
    (s.params.memSize ≤ s.sp.toNat → exec .ret s = .fault (.memFault s.sp s))

/-- The RET that follows a JSR whose push was aligned comes back to the pc that stood after the JSR's
operand was resolved, with SP as it stood then, and changes nothing else but the registers JSR's
operand stepped (44_control_transfer.md R181, R182). -/
def Obligations.RetReturnsBehindJsr : Prop :=
  ∀ (sz : Size) (src : Operand) (s t : State), exec (.jsr sz src) s = .next t →
    t.sp.toNat % 4 = 0 →
    ∃ u, exec .ret t = .next u ∧ (∀ r, u.reg r = (afterSource sz src s).reg r) ∧
      u.flags = s.flags ∧ ∀ a, u.byte a = t.byte a

/-! ## Branches, traps, halt -/

/-- BR, BEQ, BNE, BLT, BGE, BGT, BLE: the displacement is added to the advanced pc exactly where the
branch's condition on N, Z, V holds, and nothing else changes (45_branches.md R190 to R197). -/
def Obligations.OrderBranchesAddTheDisplacementIffTaken : Prop :=
  ∀ row ∈ orderBranches, ∀ (d : BitVec 24) (s : State), branchesOn row.1 row.2.1 row.2.2 d s

/-- BHI, BLOS, BCC, BCS, BMI, BPL, BVS, BVC: the displacement is added to the advanced pc exactly where
the branch's condition on N, Z, V, C holds, and nothing else changes (45_branches.md R190, R198 to
R205). -/
def Obligations.FlagBranchesAddTheDisplacementIffTaken : Prop :=
  ∀ row ∈ flagBranches, ∀ (d : BitVec 24) (s : State), branchesOn row.1 row.2.1 row.2.2 d s

/-- EMT with the putchar number appends bits 7 to 0 of R0 to the console and changes nothing else;
with another number it has the effect that the trap table gives it, and is refused where the table is
undefined (46_trap_halt.md R210). That a trap's effect is a list of register writes, byte writes and
console bytes, and that it always completes, is the model's choice (log entry 5: DESIGN CHOICE,
DEDUCED). -/
def Obligations.EmtPrintsOrCallsTheTrapTable : Prop :=
  ∀ (d : BitVec 24) (s : State),
    (encode Encoding.spec (.emt d)).toNat = 0x50 + 256 * d.toNat ∧
    (d = s.params.emtPutchar →
      exec (.emt d) s =
        .next { s with console := s.console ++ [BitVec.ofNat 8 ((s.reg 0).toNat % 256)] }) ∧
    (d ≠ s.params.emtPutchar →
      exec (.emt d) s = match Config.trapTable d s with
        | some acts => .next (acts.foldl applyAction s)
        | none => .refused (.trapUndefined d))

/-- BPT and HLT change nothing but the outcome, NOP nothing at all; their opcode bytes alone select
them (46_trap_halt.md R211, R212, R213). -/
def Obligations.BptHltNopChangeOnlyTheOutcome : Prop :=
  ∀ s : State,
    exec .bpt s = .next { s with outcome := .breakpoint } ∧
    exec .hlt s = .next { s with outcome := .halt } ∧
    exec .nop s = .next s ∧
    decodesByOpcode 0x03 .bpt ∧ decodesByOpcode 0x00 .hlt ∧ decodesByOpcode 0x01 .nop

/-! ## Comparisons and branches -/

/-- After SUB the signed branches decide the signed order of destination and source, and BEQ their
equality (45_branches.md R194; 40_step_and_operands.md R113). -/
def Obligations.SignedBranchesAfterSubDecideTheOrder : Prop :=
  ∀ (sz : Size) (dst src : Operand) (s t : State), exec (.sub sz dst src) s = .next t →
    let a := signedValue sz (operandValue sz dst (afterSource sz src s))
    let b := signedValue sz (operandValue sz src s)
    (condLess t.flags = true ↔ a < b) ∧ (condGreaterEqual t.flags = true ↔ b ≤ a) ∧
    (condGreater t.flags = true ↔ b < a) ∧ (condLessEqual t.flags = true ↔ a ≤ b) ∧
    (condEqual t.flags = true ↔ a = b)

/-- After CMP the signed branches decide the signed order where the operands share sign, and its
opposite where they differ in sign (40_step_and_operands.md R113). -/
def Obligations.SignedBranchesAfterCmp : Prop :=
  ∀ (sz : Size) (dst src : Operand) (s t : State), exec (.cmp sz dst src) s = .next t →
    let a := operandValue sz dst (afterSource sz src s)
    let b := operandValue sz src s
    let sa := signedValue sz a
    let sb := signedValue sz b
    (negative sz a = negative sz b →
      (condLess t.flags = true ↔ sa < sb) ∧ (condGreaterEqual t.flags = true ↔ sb ≤ sa) ∧
      (condGreater t.flags = true ↔ sb < sa) ∧ (condLessEqual t.flags = true ↔ sa ≤ sb)) ∧
    (negative sz a ≠ negative sz b →
      (condLess t.flags = true ↔ ¬ sa < sb) ∧ (condGreaterEqual t.flags = true ↔ ¬ sb ≤ sa) ∧
      (condGreater t.flags = true ↔ ¬ sb < sa) ∧ (condLessEqual t.flags = true ↔ ¬ sa ≤ sb))

/-- After SUB and after CMP the unsigned branches decide the unsigned order of destination and source
(45_branches.md R198 to R201). -/
def Obligations.UnsignedBranchesAfterSubAndCmp : Prop :=
  ∀ (sz : Size) (dst src : Operand) (s t : State),
    (exec (.sub sz dst src) s = .next t ∨ exec (.cmp sz dst src) s = .next t) →
    let a := operandValue sz dst (afterSource sz src s)
    let b := operandValue sz src s
    (condHigher t.flags = true ↔ b < a) ∧ (condLowerSame t.flags = true ↔ a ≤ b) ∧
    (condCarryClear t.flags = true ↔ b ≤ a) ∧ (condCarrySet t.flags = true ↔ a < b) ∧
    (condNotEqual t.flags = true ↔ a ≠ b)

/-! ## Code in memory, runs, breakpoints -/

/-- A word stored at the address of the next instruction is what the very next step fetches and runs:
no fence is needed (20_memory.md R53). -/
def Obligations.StoreIsFetchedByTheNextStep : Prop :=
  ∀ (a w : Word) (s t : State) (i : Instr), memWrite .b32 a w s = .ok () t → a.toNat % 4 = 0 →
    s.pc = a → decode s.params.encoding w = .ok i →
    step t = exec i ((t.setOutcome .continue).setPc (a + 4))

/-- A run that has ended keeps its outcome and end state under every larger budget, and its outcome is
not Continue; the core does not remember it: a step does not depend on the outcome field
(60_exceptions.md R226). -/
def Obligations.RunEndDoesNotDependOnTheBudget : Prop :=
  ∀ (k j : Nat) (s t : State) (r : Report), runUntilStop k s = some (r, t) →
    runUntilStop (k + j) s = some (r, t) ∧ r ≠ .continue ∧ ∀ o, step (t.setOutcome o) = step t

/-- A breakpoint set at the next instruction is hit by the next step, which changes nothing but pc;
with the word restored and pc rewound the machine is in the state before the hit, and its next step is
the one it would have made without the breakpoint (60_exceptions.md R235). -/
def Obligations.BreakpointHitIsTransparent : Prop :=
  ∀ (s : State) (addr : Word), s.wf → s.pc = addr → addr.toNat % 4 = 0 →
    addr.toNat < s.params.memSize →
    ∃ hit, step (setBreakpoint addr s) = .next hit ∧
      reportOf (.next hit) = some (.breakpoint, hit) ∧ hit.pc = addr + 4 ∧
      (clearBreakpoint addr (s.mem.word (addr.toNat / 4)) hit).setPc addr =
        s.setOutcome .breakpoint ∧
      step ((clearBreakpoint addr (s.mem.word (addr.toNat / 4)) hit).setPc addr) = step s

/-! ## Every encoding -/

/-- The tables of the encoding are a parameter of the machine (00_scope.md R6): whatever legal tables it
has, a step that fetches the word by which they encode a well-formed instruction runs that instruction,
with pc advanced by 4. -/
def Obligations.EveryLegalEncodingRunsItsWords : Prop :=
  ∀ (i : Instr) (s s' : State), s.wf → i.wellFormed = true →
    memRead .b32 s.pc (s.setOutcome .continue) = .ok (encode s.params.encoding i) s' →
    step s = exec i (((s.setOutcome .continue).logAccess .b32 s.pc).setPc (s.pc + 4))
end

