-- ==== Sys2Proof/Laws/Encoding.lean ====
section
/-! SUPPORT. What decoder and encoder read and write under every legal encoding: each field of an encoded
word holds what was laid there, and the tables of codes and opcodes give back what they were given. -/

namespace Sys2Proof

/-! ## Fields of a word -/

/-- A bit of a field laid at `lo`. -/
theorem getLsbD_field {n : Nat} (b : BitVec n) (lo i : Nat) :
    (b.setWidth 32 <<< lo).getLsbD i = (decide (i < 32) && !decide (i < lo) && b.getLsbD (i - lo)) := by
  simp only [BitVec.getLsbD_shiftLeft, BitVec.getLsbD_setWidth]
  by_cases h : i < 32
  · have : i - lo < 32 := by omega
    simp [h, this]
  · simp [h]

/-- A field is read back where it was laid. -/
theorem extract_field {n : Nat} (b : BitVec n) {lo : Nat} (h : lo + n ≤ 32) :
    (b.setWidth 32 <<< lo).extractLsb' lo n = b := by
  apply BitVec.eq_of_getLsbD_eq
  intro i hi
  have h1 : lo + i < 32 := by omega
  simp [hi, h1]

/-- A field leaves every place beside it clear. -/
theorem extract_beside {n k : Nat} (b : BitVec n) {lo lo' : Nat} (h : lo + n ≤ lo' ∨ lo' + k ≤ lo) :
    (b.setWidth 32 <<< lo).extractLsb' lo' k = 0 := by
  apply BitVec.eq_of_getLsbD_eq
  intro i hi
  simp only [BitVec.getLsbD_extractLsb', getLsbD_field]
  rcases h with h | h
  · have : n ≤ lo' + i - lo := by omega
    simp [BitVec.getLsbD_of_ge b _ this]
  · have : lo' + i < lo := by omega
    simp [this]

/-! ## Encoded words -/

theorem opcodeOf_encodeNone {e : Encoding} (he : e.wf) (m : Mnemonic) :
    opcodeOf e (encodeNone e m) = opcodeNumber e m :=
  extract_field _ (by have := he.2.2.2.2.1.1; simp [Encoding.btFields] at this; omega)

/-- What the fields of layout OP hold. -/
theorem fields_encodeOp {e : Encoding} (he : e.wf) (m : Mnemonic) (sz : Size) (dm sm : BitVec 2)
    (dr sr : BitVec 4) :
    opcodeOf e (encodeOp e m sz dm sm dr sr) = opcodeNumber e m ∧
    (encodeOp e m sz dm sm dr sr).extractLsb' e.szLo 2 = codeOfSize e sz ∧
    (encodeOp e m sz dm sm dr sr).extractLsb' e.dmLo 2 = dm ∧
    (encodeOp e m sz dm sm dr sr).extractLsb' e.smLo 2 = sm ∧
    (encodeOp e m sz dm sm dr sr).extractLsb' e.drLo 4 = dr ∧
    (encodeOp e m sz dm sm dr sr).extractLsb' e.srLo 4 = sr := by
  obtain ⟨hfit, hdisj⟩ := he.2.2.2.1
  simp only [Encoding.opFields, List.forall_mem_cons] at hfit
  simp [Encoding.opFields] at hdisj
  obtain ⟨_, _, _, _, _, _, -⟩ := hfit
  obtain ⟨⟨_, _, _, _, _⟩, ⟨_, _, _, _⟩, ⟨_, _, _⟩, ⟨_, _⟩, _⟩ := hdisj
  refine ⟨?_, ?_, ?_, ?_, ?_, ?_⟩ <;>
    simp (disch := first | assumption | (apply Or.symm; assumption)) [opcodeOf, encodeOp, encodeNone, BitVec.extractLsb'_or, extract_field,
      extract_beside, -BitVec.ofNat_eq_ofNat]

theorem opcodeOf_encodeOp {e : Encoding} (he : e.wf) (m : Mnemonic) (sz : Size) (dm sm : BitVec 2)
    (dr sr : BitVec 4) : opcodeOf e (encodeOp e m sz dm sm dr sr) = opcodeNumber e m :=
  (fields_encodeOp he m sz dm sm dr sr).1

/-- What the fields of layout BT hold. -/
theorem fields_encodeBt {e : Encoding} (he : e.wf) (m : Mnemonic) (d : BitVec 24) :
    opcodeOf e (encodeBt e m d) = opcodeNumber e m ∧ d24Of e (encodeBt e m d) = d := by
  obtain ⟨hfit, hdisj⟩ := he.2.2.2.2.1
  simp [Encoding.btFields] at hfit hdisj
  constructor <;>
    simp (disch := omega) [opcodeOf, d24Of, encodeBt, encodeNone, BitVec.extractLsb'_or,
      extract_field, extract_beside, -BitVec.ofNat_eq_ofNat]

theorem opcodeOf_encodeBt {e : Encoding} (he : e.wf) (m : Mnemonic) (d : BitVec 24) :
    opcodeOf e (encodeBt e m d) = opcodeNumber e m := (fields_encodeBt he m d).1

/-! ## Codes -/

/-- A size is the one whose code a field holds (30_encoding.md R67). -/
theorem sizeOfCode_eq_some {e : Encoding} (he : e.wf) {c : BitVec 2} {sz : Size} :
    sizeOfCode e c = some sz ↔ codeOfSize e sz = c := by
  have h := he.2.2.2.2.2.1
  simp at h
  unfold sizeOfCode
  split_ifs <;> cases sz <;> simp_all [codeOfSize, eq_comm]

/-- Four codes that differ are all the codes of a field of two bits. -/
theorem code_eq_one_of_four {a b c d : BitVec 2} (h : [a, b, c, d].Nodup) (x : BitVec 2) :
    x = a ∨ x = b ∨ x = c ∨ x = d := by
  simp at h
  bv_omega

/-- A mode is the one whose code a field holds (30_encoding.md R68). -/
theorem modeOfCode_eq {e : Encoding} (he : e.wf) {c : BitVec 2} {md : Mode} :
    modeOfCode e c = md ↔ codeOfMode e md = c := by
  have h := he.2.2.2.2.2.2
  have h4 := code_eq_one_of_four h c
  simp at h
  unfold modeOfCode
  split_ifs <;> cases md <;> simp_all [codeOfMode, eq_comm]

/-! ## The opcode map -/

/-- A list of pairs with no key twice gives each pair's value from its key. -/
theorem lookup_of_mem {α β : Type} [DecidableEq α] {l : List (α × β)} (h : (l.map Prod.fst).Nodup)
    {a : α} {b : β} (hm : (a, b) ∈ l) : l.lookup a = some b := by
  induction l with
  | nil => simp at hm
  | cons x l ih =>
    simp only [List.map_cons, List.nodup_cons] at h
    rcases List.mem_cons.mp hm with rfl | hm
    · simp [List.lookup]
    · have : (a == x.1) = false := by
        rw [beq_eq_false_iff_ne]
        rintro rfl
        exact h.1 (List.mem_map.mpr ⟨_, hm, rfl⟩)
      simp [List.lookup, this, ih h.2 hm]

/-- What a key gives is in the list. -/
theorem mem_of_lookup {α β : Type} [DecidableEq α] {l : List (α × β)} {a : α} {b : β}
    (h : l.lookup a = some b) : (a, b) ∈ l := by
  induction l with
  | nil => simp at h
  | cons x l ih =>
    rw [List.lookup] at h
    split at h
    · next hx =>
      obtain rfl := beq_iff_eq.mp hx
      simp [← Option.some.inj h]
    · exact List.mem_cons_of_mem _ (ih h)

/-- The row of a mnemonic stands in the opcode map (30_encoding.md R66). -/
theorem opcodeNumber_mem {e : Encoding} (he : e.wf) (m : Mnemonic) :
    (opcodeNumber e m, m) ∈ e.opcodes := by
  obtain ⟨x, hx, rfl⟩ := List.mem_map.mp (he.2.2.1 m (by cases m <;> decide))
  unfold opcodeNumber
  cases h : e.opcodes.find? (fun row => row.2 = x.2) with
  | none => simpa using List.find?_eq_none.mp h x hx
  | some row =>
    have h2 : row.2 = x.2 := by simpa using List.find?_some h
    have h1 := List.mem_of_find?_eq_some h
    simpa [← h2] using h1

/-- An opcode byte stands for a mnemonic exactly where it is the mnemonic's number (30_encoding.md
R66). -/
theorem lookup_eq_some {e : Encoding} (he : e.wf) {b : Byte} {m : Mnemonic} :
    e.opcodes.lookup b = some m ↔ opcodeNumber e m = b := by
  constructor
  · intro h
    have h1 := mem_of_lookup h
    have h2 := opcodeNumber_mem he m
    have := List.inj_on_of_nodup_map he.2.1 h1 h2 rfl
    exact (congrArg Prod.fst this).symm
  · rintro rfl
    exact lookup_of_mem he.1 (opcodeNumber_mem he m)

/-- The opcode map gives every mnemonic back from its number (30_encoding.md R66). -/
theorem lookup_opcodeNumber {e : Encoding} (he : e.wf) (m : Mnemonic) :
    e.opcodes.lookup (opcodeNumber e m) = some m := (lookup_eq_some he).mpr rfl

/-! ## The spec's own tables -/

/-- The spec's own tables are an encoding (30_encoding.md R61 to R68). -/
theorem Encoding.spec_wf : Encoding.spec.wf := by decide

end Sys2Proof
end

