-- ==== Sys2Proof/Laws/State.lean ====
section
/-! SUPPORT. One lemma for each field under each update of the state, so that no later proof unfolds a
record update. -/

namespace Sys2Proof.Machine

/-! ## Writing a register -/

theorem State.reg_setReg (s : State) (r r' : RegId) (v : Word) :
    (s.setReg r v).reg r' = if r' = r then v else s.reg r' := by
  simp only [State.reg, State.setReg, Vector.get_eq_getElem, Vector.getElem_set]
  by_cases h : r' = r
  · simp [h]
  · have : ¬ r.val = r'.val := fun e => h (Fin.ext e.symm)
    simp [h, this]

@[simp] theorem State.reg_setReg_same (s : State) (r : RegId) (v : Word) :
    (s.setReg r v).reg r = v := by simp [State.reg_setReg]

theorem State.reg_setReg_ne (s : State) {r r' : RegId} (v : Word) (h : r' ≠ r) :
    (s.setReg r v).reg r' = s.reg r' := by simp [State.reg_setReg, h]

@[simp] theorem State.setReg_flags (s : State) (r : RegId) (v : Word) :
    (s.setReg r v).flags = s.flags := rfl
@[simp] theorem State.setReg_mem (s : State) (r : RegId) (v : Word) :
    (s.setReg r v).mem = s.mem := rfl
@[simp] theorem State.setReg_console (s : State) (r : RegId) (v : Word) :
    (s.setReg r v).console = s.console := rfl
@[simp] theorem State.setReg_alignLog (s : State) (r : RegId) (v : Word) :
    (s.setReg r v).alignLog = s.alignLog := rfl
@[simp] theorem State.setReg_params (s : State) (r : RegId) (v : Word) :
    (s.setReg r v).params = s.params := rfl
@[simp] theorem State.setReg_outcome (s : State) (r : RegId) (v : Word) :
    (s.setReg r v).outcome = s.outcome := rfl

/-- A register written with the value it holds: the state is as it was. -/
@[simp] theorem State.setReg_reg_self (s : State) (r : RegId) : s.setReg r (s.reg r) = s := by
  have h : s.regs.set r.val (s.regs.get r) r.isLt = s.regs := by
    ext i hi
    simp only [Vector.getElem_set, Vector.get_eq_getElem]
    split
    · next e => subst e; rfl
    · rfl
  simp only [State.setReg, State.reg, h]

/-- Of two writes to one register the later one stands. -/
@[simp] theorem State.setReg_setReg (s : State) (r : RegId) (v v' : Word) :
    (s.setReg r v).setReg r v' = s.setReg r v' := by
  simp only [State.setReg, Vector.set_set]

theorem State.setPc_eq (s : State) (t : Word) : s.setPc t = s.setReg 15 t := rfl
theorem State.setSp_eq (s : State) (t : Word) : s.setSp t = s.setReg 14 t := rfl
theorem State.pc_eq (s : State) : s.pc = s.reg 15 := rfl
theorem State.sp_eq (s : State) : s.sp = s.reg 14 := rfl

@[simp] theorem State.setPc_flags (s : State) (t : Word) : (s.setPc t).flags = s.flags := rfl
@[simp] theorem State.setPc_mem (s : State) (t : Word) : (s.setPc t).mem = s.mem := rfl
@[simp] theorem State.setPc_console (s : State) (t : Word) : (s.setPc t).console = s.console := rfl
@[simp] theorem State.setPc_alignLog (s : State) (t : Word) : (s.setPc t).alignLog = s.alignLog := rfl
@[simp] theorem State.setPc_params (s : State) (t : Word) : (s.setPc t).params = s.params := rfl
@[simp] theorem State.setPc_outcome (s : State) (t : Word) : (s.setPc t).outcome = s.outcome := rfl
@[simp] theorem State.setPc_pc (s : State) (t : Word) : (s.setPc t).pc = t := by
  simp [State.setPc_eq, State.pc_eq]
@[simp] theorem State.setPc_sp (s : State) (t : Word) : (s.setPc t).sp = s.sp := by
  simp [State.setPc_eq, State.sp_eq, State.reg_setReg]
@[simp] theorem State.setPc_setPc (s : State) (t u : Word) : (s.setPc t).setPc u = s.setPc u := by
  simp [State.setPc_eq]
@[simp] theorem State.setPc_pc_self (s : State) : s.setPc s.pc = s := by
  simp [State.setPc_eq, State.pc_eq]

@[simp] theorem State.setSp_flags (s : State) (t : Word) : (s.setSp t).flags = s.flags := rfl
@[simp] theorem State.setSp_mem (s : State) (t : Word) : (s.setSp t).mem = s.mem := rfl
@[simp] theorem State.setSp_console (s : State) (t : Word) : (s.setSp t).console = s.console := rfl
@[simp] theorem State.setSp_alignLog (s : State) (t : Word) : (s.setSp t).alignLog = s.alignLog := rfl
@[simp] theorem State.setSp_params (s : State) (t : Word) : (s.setSp t).params = s.params := rfl
@[simp] theorem State.setSp_outcome (s : State) (t : Word) : (s.setSp t).outcome = s.outcome := rfl
@[simp] theorem State.setSp_sp (s : State) (t : Word) : (s.setSp t).sp = t := by
  simp [State.setSp_eq, State.sp_eq]
@[simp] theorem State.setSp_pc (s : State) (t : Word) : (s.setSp t).pc = s.pc := by
  simp [State.setSp_eq, State.pc_eq, State.reg_setReg]

/-! ## Flags, outcome, console -/

@[simp] theorem State.setFlags_reg (s : State) (f : Flags) (r : RegId) :
    (s.setFlags f).reg r = s.reg r := rfl
@[simp] theorem State.setFlags_flags (s : State) (f : Flags) : (s.setFlags f).flags = f := rfl
@[simp] theorem State.setFlags_mem (s : State) (f : Flags) : (s.setFlags f).mem = s.mem := rfl
@[simp] theorem State.setFlags_console (s : State) (f : Flags) :
    (s.setFlags f).console = s.console := rfl
@[simp] theorem State.setFlags_alignLog (s : State) (f : Flags) :
    (s.setFlags f).alignLog = s.alignLog := rfl
@[simp] theorem State.setFlags_params (s : State) (f : Flags) :
    (s.setFlags f).params = s.params := rfl
@[simp] theorem State.setFlags_outcome (s : State) (f : Flags) :
    (s.setFlags f).outcome = s.outcome := rfl

@[simp] theorem State.setOutcome_reg (s : State) (o : StepOutcome) (r : RegId) :
    (s.setOutcome o).reg r = s.reg r := rfl
@[simp] theorem State.setOutcome_pc (s : State) (o : StepOutcome) :
    (s.setOutcome o).pc = s.pc := rfl
@[simp] theorem State.setOutcome_flags (s : State) (o : StepOutcome) :
    (s.setOutcome o).flags = s.flags := rfl
@[simp] theorem State.setOutcome_mem (s : State) (o : StepOutcome) :
    (s.setOutcome o).mem = s.mem := rfl
@[simp] theorem State.setOutcome_console (s : State) (o : StepOutcome) :
    (s.setOutcome o).console = s.console := rfl
@[simp] theorem State.setOutcome_alignLog (s : State) (o : StepOutcome) :
    (s.setOutcome o).alignLog = s.alignLog := rfl
@[simp] theorem State.setOutcome_params (s : State) (o : StepOutcome) :
    (s.setOutcome o).params = s.params := rfl
@[simp] theorem State.setOutcome_outcome (s : State) (o : StepOutcome) :
    (s.setOutcome o).outcome = o := rfl
@[simp] theorem State.setOutcome_setOutcome (s : State) (o o' : StepOutcome) :
    (s.setOutcome o).setOutcome o' = s.setOutcome o' := rfl

@[simp] theorem State.print_reg (s : State) (b : Byte) (r : RegId) :
    (s.print b).reg r = s.reg r := rfl
@[simp] theorem State.print_flags (s : State) (b : Byte) : (s.print b).flags = s.flags := rfl
@[simp] theorem State.print_mem (s : State) (b : Byte) : (s.print b).mem = s.mem := rfl
@[simp] theorem State.print_console (s : State) (b : Byte) :
    (s.print b).console = s.console ++ [b] := rfl
@[simp] theorem State.print_alignLog (s : State) (b : Byte) :
    (s.print b).alignLog = s.alignLog := rfl
@[simp] theorem State.print_params (s : State) (b : Byte) : (s.print b).params = s.params := rfl
@[simp] theorem State.print_outcome (s : State) (b : Byte) : (s.print b).outcome = s.outcome := rfl

/-! ## The alignment report -/

/-- What a carried-out access adds to AlignLog. -/
theorem State.logAccess_alignLog (s : State) (sz : Size) (a : Word) :
    (s.logAccess sz a).alignLog =
      s.alignLog ++ if misaligned sz a then [(a, sizeBytes sz)] else [] := by
  unfold State.logAccess; split <;> simp

@[simp] theorem State.logAccess_reg (s : State) (sz : Size) (a : Word) (r : RegId) :
    (s.logAccess sz a).reg r = s.reg r := by unfold State.logAccess; split <;> rfl
@[simp] theorem State.logAccess_pc (s : State) (sz : Size) (a : Word) :
    (s.logAccess sz a).pc = s.pc := State.logAccess_reg s sz a 15
@[simp] theorem State.logAccess_sp (s : State) (sz : Size) (a : Word) :
    (s.logAccess sz a).sp = s.sp := State.logAccess_reg s sz a 14
@[simp] theorem State.logAccess_flags (s : State) (sz : Size) (a : Word) :
    (s.logAccess sz a).flags = s.flags := by unfold State.logAccess; split <;> rfl
@[simp] theorem State.logAccess_mem (s : State) (sz : Size) (a : Word) :
    (s.logAccess sz a).mem = s.mem := by unfold State.logAccess; split <;> rfl
@[simp] theorem State.logAccess_console (s : State) (sz : Size) (a : Word) :
    (s.logAccess sz a).console = s.console := by unfold State.logAccess; split <;> rfl
@[simp] theorem State.logAccess_params (s : State) (sz : Size) (a : Word) :
    (s.logAccess sz a).params = s.params := by unfold State.logAccess; split <;> rfl
@[simp] theorem State.logAccess_outcome (s : State) (sz : Size) (a : Word) :
    (s.logAccess sz a).outcome = s.outcome := by unfold State.logAccess; split <;> rfl

/-- An aligned access reports nothing. -/
theorem State.logAccess_aligned (s : State) {sz : Size} {a : Word} (h : misaligned sz a = false) :
    s.logAccess sz a = s := by simp [State.logAccess, h]

/-! ## Writing memory -/

/-- A state with another memory: every register, and the byte of an address, of it. -/
@[simp] theorem State.withMem_reg (s : State) (m : Memory) (r : RegId) :
    ({ s with mem := m } : State).reg r = s.reg r := rfl
@[simp] theorem State.withMem_pc (s : State) (m : Memory) :
    ({ s with mem := m } : State).pc = s.pc := rfl
@[simp] theorem State.withMem_sp (s : State) (m : Memory) :
    ({ s with mem := m } : State).sp = s.sp := rfl

theorem State.byte_eq (s : State) (a : Nat) : s.byte a = s.mem.get a := rfl

/-! ## The steps of AutoIncrement and AutoDecrement -/

theorem stepUp_reg (sz : Size) (r r' : RegId) (s : State) :
    (stepUp sz r s).reg r' = if r' = r then s.reg r + stepOf sz r else s.reg r' := by
  simp [stepUp, State.reg_setReg]
theorem stepDown_reg (sz : Size) (r r' : RegId) (s : State) :
    (stepDown sz r s).reg r' = if r' = r then s.reg r - stepOf sz r else s.reg r' := by
  simp [stepDown, State.reg_setReg]

@[simp] theorem stepUp_flags (sz : Size) (r : RegId) (s : State) :
    (stepUp sz r s).flags = s.flags := rfl
@[simp] theorem stepUp_mem (sz : Size) (r : RegId) (s : State) : (stepUp sz r s).mem = s.mem := rfl
@[simp] theorem stepUp_console (sz : Size) (r : RegId) (s : State) :
    (stepUp sz r s).console = s.console := rfl
@[simp] theorem stepUp_alignLog (sz : Size) (r : RegId) (s : State) :
    (stepUp sz r s).alignLog = s.alignLog := rfl
@[simp] theorem stepUp_params (sz : Size) (r : RegId) (s : State) :
    (stepUp sz r s).params = s.params := rfl
@[simp] theorem stepUp_outcome (sz : Size) (r : RegId) (s : State) :
    (stepUp sz r s).outcome = s.outcome := rfl
@[simp] theorem stepDown_flags (sz : Size) (r : RegId) (s : State) :
    (stepDown sz r s).flags = s.flags := rfl
@[simp] theorem stepDown_mem (sz : Size) (r : RegId) (s : State) :
    (stepDown sz r s).mem = s.mem := rfl
@[simp] theorem stepDown_console (sz : Size) (r : RegId) (s : State) :
    (stepDown sz r s).console = s.console := rfl
@[simp] theorem stepDown_alignLog (sz : Size) (r : RegId) (s : State) :
    (stepDown sz r s).alignLog = s.alignLog := rfl
@[simp] theorem stepDown_params (sz : Size) (r : RegId) (s : State) :
    (stepDown sz r s).params = s.params := rfl
@[simp] theorem stepDown_outcome (sz : Size) (r : RegId) (s : State) :
    (stepDown sz r s).outcome = s.outcome := rfl

end Sys2Proof.Machine
end

