-- ==== Sys2Proof/Laws/Memory.lean ====
section
/-! SUPPORT. The laws of memory: a read after a write, and the canonical form that every write keeps. -/

namespace Sys2Proof.Machine

/-! ## Read after write -/

theorem Memory.get_erase (m : Memory) (a b : Nat) :
    (m.erase a).get b = if b = a then unwrittenByte else m.get b := by
  induction m with
  | nil => simp [Memory.erase, Memory.get]
  | cons x rest ih =>
    obtain ⟨k, v⟩ := x
    by_cases hk : k = a
    · subst hk
      rw [show Memory.erase ((k, v) :: rest) k = Memory.erase rest k by simp [Memory.erase], ih]
      by_cases hb : b = k
      · simp [hb]
      · simp [Memory.get, hb, Ne.symm hb]
    · by_cases hb : k = b
      · subst hb; simp [Memory.erase, Memory.get, hk]
      · simp [Memory.erase, Memory.get, hk, hb, ih]

theorem Memory.get_insert_ne (m : Memory) (a b : Nat) (v : Byte) (h : b ≠ a) :
    (m.insert a v).get b = m.get b := by
  induction m with
  | nil => simp [Memory.insert, Memory.get, Ne.symm h]
  | cons x rest ih =>
    obtain ⟨k, u⟩ := x
    by_cases hk : a < k
    · simp [Memory.insert, Memory.get, hk, Ne.symm h]
    · simp [Memory.insert, Memory.get, hk, ih]

theorem Memory.get_insert_same (m : Memory) (a : Nat) (v : Byte) (h : ∀ x ∈ m, x.1 ≠ a) :
    (m.insert a v).get a = v := by
  induction m with
  | nil => simp [Memory.insert, Memory.get]
  | cons x rest ih =>
    obtain ⟨k, u⟩ := x
    have hka : k ≠ a := h (k, u) (by simp)
    have ih := ih (fun y hy => h y (by simp [hy]))
    by_cases hk : a < k
    · simp [Memory.insert, Memory.get, hk]
    · simp [Memory.insert, Memory.get, hk, hka, ih]

theorem Memory.mem_erase {m : Memory} {a : Nat} {x : Host.Cell} :
    x ∈ m.erase a ↔ x ∈ m ∧ x.1 ≠ a := by
  induction m with
  | nil => simp [Memory.erase]
  | cons y rest ih =>
    obtain ⟨k, v⟩ := y
    by_cases hk : k = a
    · simp only [Memory.erase, hk, if_true, ih, List.mem_cons]
      constructor
      · rintro ⟨h, h'⟩; exact ⟨.inr h, h'⟩
      · rintro ⟨rfl | h, h'⟩
        · exact absurd rfl h'
        · exact ⟨h, h'⟩
    · simp only [Memory.erase, hk, if_false, List.mem_cons, ih]
      constructor
      · rintro (rfl | ⟨h, h'⟩)
        · exact ⟨.inl rfl, hk⟩
        · exact ⟨.inr h, h'⟩
      · rintro ⟨rfl | h, h'⟩
        · exact .inl rfl
        · exact .inr ⟨h, h'⟩

/-- A read after a write: the byte written at its address, every other byte as before. It holds of
every list, canonical or not. -/
theorem Memory.get_set (m : Memory) (a b : Nat) (v : Byte) :
    (m.set a v).get b = if b = a then v else m.get b := by
  unfold Memory.set
  split
  · next h => rw [Memory.get_erase]; simp [h]
  · by_cases hb : b = a
    · subst hb
      rw [Memory.get_insert_same _ _ _ (fun x hx => (Memory.mem_erase.mp hx).2)]; simp
    · rw [Memory.get_insert_ne _ _ _ _ hb, Memory.get_erase]; simp [hb]

/-- The four bytes of a word written, every other byte as before (20_memory.md R41). -/
theorem Memory.get_setWord (m : Memory) (i b : Nat) (w : Word) :
    (m.setWord i w).get b =
      if b / 4 = i then w.extractLsb' (8 * (b % 4)) 8 else m.get b := by
  simp only [Memory.setWord, Memory.get_set]
  by_cases h : b / 4 = i
  · have hb : b = 4 * i + b % 4 := by omega
    have h4 : b % 4 = 0 ∨ b % 4 = 1 ∨ b % 4 = 2 ∨ b % 4 = 3 := by omega
    rw [if_pos h]
    rcases h4 with e | e | e | e <;> rw [e] at hb ⊢ <;> subst hb <;> simp
  · rw [if_neg h, if_neg (by omega), if_neg (by omega), if_neg (by omega), if_neg (by omega)]

/-! ## The canonical form -/

theorem Memory.wf_nil : Memory.wf [] := by simp [Memory.wf]

theorem Memory.erase_wf {m : Memory} (h : m.wf) (a : Nat) : (m.erase a).wf := by
  have hs : (m.erase a).Sublist m := by
    clear h
    induction m with
    | nil => simp [Memory.erase]
    | cons x rest ih =>
      obtain ⟨k, v⟩ := x
      by_cases hk : k = a
      · simpa [Memory.erase, hk] using ih.trans (List.sublist_cons_self _ _)
      · simpa [Memory.erase, hk] using ih
  exact ⟨h.1.sublist hs, fun x hx => h.2 x (hs.subset hx)⟩

theorem Memory.mem_insert {m : Memory} {a : Nat} {v : Byte} {x : Host.Cell} :
    x ∈ m.insert a v ↔ x = (a, v) ∨ x ∈ m := by
  induction m with
  | nil => simp [Memory.insert]
  | cons y rest ih =>
    obtain ⟨k, u⟩ := y
    by_cases hk : a < k
    · simp [Memory.insert, hk]
    · simp only [Memory.insert, hk, if_false, List.mem_cons, ih]
      tauto

theorem Memory.insert_wf {m : Memory} (h : m.wf) {a : Nat} {v : Byte} (hv : v ≠ unwrittenByte)
    (ha : ∀ x ∈ m, x.1 ≠ a) : (m.insert a v).wf := by
  refine ⟨?_, fun x hx => ?_⟩
  · obtain ⟨h, -⟩ := h
    induction m with
    | nil => simp [Memory.insert]
    | cons y rest ih =>
      obtain ⟨k, u⟩ := y
      rw [List.pairwise_cons] at h
      have hka : k ≠ a := ha (k, u) (by simp)
      by_cases hk : a < k
      · simp only [Memory.insert, hk, if_true, List.pairwise_cons]
        refine ⟨fun x hx => ?_, h.1, h.2⟩
        rcases List.mem_cons.mp hx with rfl | hx
        · exact hk
        · exact hk.trans (h.1 x hx)
      · simp only [Memory.insert, hk, if_false, List.pairwise_cons]
        refine ⟨fun x hx => ?_, ih (fun y hy => ha y (by simp [hy])) h.2⟩
        rcases Memory.mem_insert.mp hx with rfl | hx
        · show k < a; omega
        · exact h.1 x hx
  · rcases Memory.mem_insert.mp hx with rfl | hx
    · exact hv
    · exact h.2 x hx

/-- Every write keeps the canonical form. -/
theorem Memory.set_wf {m : Memory} (h : m.wf) (a : Nat) (v : Byte) : (m.set a v).wf := by
  unfold Memory.set
  split
  · exact Memory.erase_wf h a
  · next hv =>
    exact Memory.insert_wf (Memory.erase_wf h a) hv (fun x hx => (Memory.mem_erase.mp hx).2)

/-- Writing a word keeps the canonical form. -/
theorem Memory.setWord_wf {m : Memory} (h : m.wf) (i : Nat) (w : Word) : (m.setWord i w).wf :=
  Memory.set_wf (Memory.set_wf (Memory.set_wf (Memory.set_wf h _ _) _ _) _ _) _ _

/-- A write adds no entry but at its own address. -/
theorem Memory.mem_set {m : Memory} {a : Nat} {v : Byte} {x : Host.Cell} (h : x ∈ m.set a v) :
    x.1 = a ∨ x ∈ m := by
  unfold Memory.set at h
  split at h
  · exact .inr (Memory.mem_erase.mp h).1
  · rcases Memory.mem_insert.mp h with rfl | h
    · exact .inl rfl
    · exact .inr (Memory.mem_erase.mp h).1

/-- A word write adds no entry but at the four addresses of its word. -/
theorem Memory.mem_setWord {m : Memory} {i : Nat} {w : Word} {x : Host.Cell}
    (h : x ∈ m.setWord i w) : x.1 / 4 = i ∨ x ∈ m := by
  rcases Memory.mem_set h with e | h
  · left; omega
  rcases Memory.mem_set h with e | h
  · left; omega
  rcases Memory.mem_set h with e | h
  · left; omega
  rcases Memory.mem_set h with e | h
  · left; omega
  exact .inr h

/-- An address below every listed one reads as unwritten. -/
theorem Memory.get_of_lt {m : Memory} {a : Nat} (h : ∀ x ∈ m, a < x.1) :
    m.get a = unwrittenByte := by
  induction m with
  | nil => rfl
  | cons x rest ih =>
    obtain ⟨k, v⟩ := x
    have hk : a < k := h (k, v) (by simp)
    simp only [Memory.get]
    rw [if_neg (by omega)]
    exact ih (fun y hy => h y (by simp [hy]))

/-- Two canonical memories that read alike at every address are equal. -/
theorem Memory.ext_of_wf {m m' : Memory} (h : m.wf) (h' : m'.wf)
    (e : ∀ a, m.get a = m'.get a) : m = m' := by
  induction m generalizing m' with
  | nil =>
    cases m' with
    | nil => rfl
    | cons y rest' =>
      obtain ⟨k, v⟩ := y
      have := e k
      simp only [Memory.get, if_true] at this
      exact absurd this.symm (h'.2 (k, v) (by simp))
  | cons x rest ih =>
    obtain ⟨k, v⟩ := x
    have hp := List.pairwise_cons.mp h.1
    have hv : v ≠ unwrittenByte := h.2 (k, v) (by simp)
    have hrest : Memory.wf rest := ⟨hp.2, fun y hy => h.2 y (by simp [hy])⟩
    cases m' with
    | nil =>
      have := e k
      simp only [Memory.get, if_true] at this
      exact absurd this hv
    | cons y rest' =>
      obtain ⟨k', v'⟩ := y
      have hp' := List.pairwise_cons.mp h'.1
      have hv' : v' ≠ unwrittenByte := h'.2 (k', v') (by simp)
      have hrest' : Memory.wf rest' := ⟨hp'.2, fun y hy => h'.2 y (by simp [hy])⟩
      have hkk : k = k' := by
        rcases lt_trichotomy k k' with hlt | he | hgt
        · have := e k
          rw [Memory.get_of_lt (m := (k', v') :: rest')] at this
          · simp only [Memory.get, if_true] at this; exact absurd this hv
          · intro y hy
            rcases List.mem_cons.mp hy with rfl | hy
            · exact hlt
            · exact hlt.trans (hp'.1 y hy)
        · exact he
        · have := e k'
          rw [Memory.get_of_lt (m := (k, v) :: rest)] at this
          · simp only [Memory.get, if_true] at this; exact absurd this.symm hv'
          · intro y hy
            rcases List.mem_cons.mp hy with rfl | hy
            · exact hgt
            · exact hgt.trans (hp.1 y hy)
      subst hkk
      have hvv : v = v' := by simpa [Memory.get] using e k
      subst hvv
      have : rest = rest' := by
        refine ih hrest hrest' (fun a => ?_)
        by_cases ha : k = a
        · subst ha
          rw [Memory.get_of_lt hp.1, Memory.get_of_lt hp'.1]
        · simpa [Memory.get, ha] using e a
      rw [this]

end Sys2Proof.Machine
end

