-- ==== Sys2Proof/Laws/Ops.lean ====
section
/-! SUPPORT. What each shared operation over registers and memory can do, said once: the cases of a
bind, of MemRead, MemWrite, push and pop, and what they keep. -/

namespace Sys2Proof.Machine

/-! ## Results -/

@[simp] theorem Res.bind_ok {α β : Type} (a : α) (s : State) (k : α → State → Res β) :
    (Res.ok a s).bind k = k a s := rfl
@[simp] theorem Res.bind_stop {α β : Type} (f : Fault) (k : α → State → Res β) :
    (Res.stop f : Res α).bind k = .stop f := rfl

/-- Binds associate. -/
theorem Res.bind_assoc {α β γ : Type} (r : Res α) (k : α → State → Res β)
    (l : β → State → Res γ) : (r.bind k).bind l = r.bind fun a s => (k a s).bind l := by
  cases r <;> rfl

/-- A bind ends well exactly where both of its parts do. -/
theorem Res.bind_eq_ok {α β : Type} {r : Res α} {k : α → State → Res β} {b : β} {t : State} :
    r.bind k = .ok b t ↔ ∃ a s, r = .ok a s ∧ k a s = .ok b t := by
  cases r <;> simp

/-- A bind stops where its first part does, or where the second does from what the first left. -/
theorem Res.bind_eq_stop {α β : Type} {r : Res α} {k : α → State → Res β} {f : Fault} :
    r.bind k = .stop f ↔ r = .stop f ∨ ∃ a s, r = .ok a s ∧ k a s = .stop f := by
  cases r <;> simp

@[simp] theorem Res.toOutcome_ok (s : State) : (Res.ok () s).toOutcome = .next s := rfl
@[simp] theorem Res.toOutcome_stop (f : Fault) : (Res.stop f : Res Unit).toOutcome = .fault f := rfl

theorem Res.toOutcome_eq_next {r : Res Unit} {t : State} :
    r.toOutcome = .next t ↔ r = .ok () t := by
  cases r <;> simp [Res.toOutcome]

theorem Res.toOutcome_eq_fault {r : Res Unit} {f : Fault} :
    r.toOutcome = .fault f ↔ r = .stop f := by
  cases r <;> simp [Res.toOutcome]

@[simp] theorem Res.toOutcome_ne_refused (r : Res Unit) (x : Refusal) :
    r.toOutcome ≠ .refused x := by
  cases r <;> simp [Res.toOutcome]

@[simp] theorem raise_eq {α : Type} (e : State → Fault) (s : State) :
    (raise e s : Res α) = .stop (e s) := rfl

@[simp] theorem leftBehind_memFault (a : Word) (s : State) : leftBehind (.memFault a s) = s := rfl
@[simp] theorem leftBehind_unknown (w : Word) (s : State) : leftBehind (.unknown w s) = s := rfl
@[simp] theorem leftBehind_divideError (s : State) : leftBehind (.divideError s) = s := rfl

/-! ## MemRead and MemWrite -/

/-- A read inside memory, and all that it does. -/
theorem memRead_of_lt {sz : Size} {a : Word} {s : State} (h : a.toNat < s.params.memSize) :
    memRead sz a s =
      .ok ((s.mem.word (a.toNat / 4) >>> (8 * (a.toNat % 4))) &&& wordMask sz)
        (s.logAccess sz a) := by
  simp [memRead, Nat.not_le.mpr h]

/-- A read outside memory. -/
theorem memRead_of_ge {sz : Size} {a : Word} {s : State} (h : s.params.memSize ≤ a.toNat) :
    memRead sz a s = .stop (.memFault a s) := by
  simp [memRead, h]

/-- A write inside memory, and all that it does. -/
theorem memWrite_of_lt {sz : Size} {a v : Word} {s : State} (h : a.toNat < s.params.memSize) :
    memWrite sz a v s =
      .ok () { s.logAccess sz a with
        mem := s.mem.setWord (a.toNat / 4)
          (mergeWord sz (a.toNat % 4) v (s.mem.word (a.toNat / 4))) } := by
  simp [memWrite, Nat.not_le.mpr h]

/-- A write outside memory. -/
theorem memWrite_of_ge {sz : Size} {a v : Word} {s : State} (h : s.params.memSize ≤ a.toNat) :
    memWrite sz a v s = .stop (.memFault a s) := by
  simp [memWrite, h]

theorem memRead_eq_ok {sz : Size} {a v : Word} {s t : State} :
    memRead sz a s = .ok v t ↔ a.toNat < s.params.memSize ∧
      v = (s.mem.word (a.toNat / 4) >>> (8 * (a.toNat % 4))) &&& wordMask sz ∧
      t = s.logAccess sz a := by
  rcases Nat.lt_or_ge a.toNat s.params.memSize with h | h
  · rw [memRead_of_lt h]; simp only [Res.ok.injEq, h, true_and]
    constructor <;> rintro ⟨rfl, rfl⟩ <;> exact ⟨rfl, rfl⟩
  · rw [memRead_of_ge h]; simp [Nat.not_lt.mpr h]

theorem memRead_eq_stop {sz : Size} {a : Word} {s : State} {f : Fault} :
    memRead sz a s = .stop f ↔ s.params.memSize ≤ a.toNat ∧ f = .memFault a s := by
  rcases Nat.lt_or_ge a.toNat s.params.memSize with h | h
  · rw [memRead_of_lt h]; simp [Nat.not_le.mpr h]
  · rw [memRead_of_ge h]; simp [h, eq_comm]

theorem memWrite_eq_ok {sz : Size} {a v : Word} {s t : State} :
    memWrite sz a v s = .ok () t ↔ a.toNat < s.params.memSize ∧
      t = { s.logAccess sz a with
        mem := s.mem.setWord (a.toNat / 4)
          (mergeWord sz (a.toNat % 4) v (s.mem.word (a.toNat / 4))) } := by
  rcases Nat.lt_or_ge a.toNat s.params.memSize with h | h
  · rw [memWrite_of_lt h]; simp [h, eq_comm]
  · rw [memWrite_of_ge h]; simp [Nat.not_lt.mpr h]

theorem memWrite_eq_stop {sz : Size} {a v : Word} {s : State} {f : Fault} :
    memWrite sz a v s = .stop f ↔ s.params.memSize ≤ a.toNat ∧ f = .memFault a s := by
  rcases Nat.lt_or_ge a.toNat s.params.memSize with h | h
  · rw [memWrite_of_lt h]; simp [Nat.not_le.mpr h]
  · rw [memWrite_of_ge h]; simp [h, eq_comm]

/-- A write keeps the canonical form of memory. -/
theorem memWrite_wf {sz : Size} {a v : Word} {s t : State} (h : memWrite sz a v s = .ok () t)
    (hm : s.mem.wf) : t.mem.wf := by
  obtain ⟨-, rfl⟩ := memWrite_eq_ok.mp h
  exact Memory.setWord_wf hm _ _

/-- A write adds no byte outside memory, the size of memory being a multiple of 4. -/
theorem memWrite_inside {sz : Size} {a v : Word} {s t : State} (h : memWrite sz a v s = .ok () t)
    (h4 : s.params.memSize % 4 = 0) (hs : ∀ x ∈ s.mem, x.1 < s.params.memSize) :
    ∀ x ∈ t.mem, x.1 < t.params.memSize := by
  obtain ⟨ha, rfl⟩ := memWrite_eq_ok.mp h
  intro x hx
  have hp : (s.logAccess sz a).params = s.params := State.logAccess_params s sz a
  simp only [hp]
  rcases Memory.mem_setWord hx with e | hx
  · omega
  · exact hs x hx

/-! ## Push and pop -/

theorem push_eq_ok {v : Word} {s t : State} :
    push v s = .ok () t ↔ memWrite .b32 (s.sp - 4) v (s.setSp (s.sp - 4)) = .ok () t := by
  simp [push]

theorem push_eq_stop {v : Word} {s : State} {f : Fault} :
    push v s = .stop f ↔ s.params.memSize ≤ (s.sp - 4).toNat ∧
      f = .memFault (s.sp - 4) (s.setSp (s.sp - 4)) := by
  simp [push, memWrite_eq_stop]

theorem pop_eq_ok {v : Word} {s t : State} :
    pop s = .ok v t ↔ ∃ u, memRead .b32 s.sp s = .ok v u ∧ t = u.setSp (s.sp + 4) := by
  unfold pop
  rw [Res.bind_eq_ok]
  constructor
  · rintro ⟨a, u, h, e⟩
    obtain ⟨-, -, rfl⟩ := memRead_eq_ok.mp h
    simp only [Res.ok.injEq] at e
    obtain ⟨rfl, rfl⟩ := e
    exact ⟨_, h, by simp⟩
  · rintro ⟨u, h, rfl⟩
    obtain ⟨-, -, rfl⟩ := memRead_eq_ok.mp h
    exact ⟨_, _, h, by simp⟩

theorem pop_eq_stop {s : State} {f : Fault} :
    pop s = .stop f ↔ s.params.memSize ≤ s.sp.toNat ∧ f = .memFault s.sp s := by
  unfold pop
  rw [Res.bind_eq_stop, memRead_eq_stop]
  simp

end Sys2Proof.Machine
end

