-- ==== Sys2Proof/Laws/Operands.lean ====
section
/-! SUPPORT. What operand resolution and the two-operand templates can do, said once. -/

namespace Sys2Proof.Machine

/-! ## Reading an operand in memory -/

theorem readOperand_eq_ok {sz : Size} {a : Word} {b : Wide} {s t : State} :
    readOperand sz a s = .ok b t ↔ ∃ v, memRead sz a s = .ok v t ∧ b = v.setWidth 64 := by
  unfold readOperand
  rw [Res.bind_eq_ok]
  constructor
  · rintro ⟨v, u, h, e⟩
    simp only [Res.ok.injEq] at e
    obtain ⟨rfl, rfl⟩ := e
    exact ⟨v, h, rfl⟩
  · rintro ⟨v, h, rfl⟩
    exact ⟨v, t, h, rfl⟩

theorem readOperand_eq_stop {sz : Size} {a : Word} {s : State} {f : Fault} :
    readOperand sz a s = .stop f ↔ s.params.memSize ≤ a.toNat ∧ f = .memFault a s := by
  unfold readOperand
  rw [Res.bind_eq_stop, memRead_eq_stop]
  simp

/-! ## The source operand -/

/-- The state in which a memory operand's register holds the address that is accessed. -/
@[simp] theorem beforeAccess_reg (sz : Size) (o : Operand) (s : State) :
    (beforeAccess sz o s).reg o.reg = operandAddr sz o s := by
  unfold beforeAccess operandAddr
  split <;> simp [stepDown]

@[simp] theorem beforeAccess_params (sz : Size) (o : Operand) (s : State) :
    (beforeAccess sz o s).params = s.params := by unfold beforeAccess; split <;> rfl
@[simp] theorem beforeAccess_mem (sz : Size) (o : Operand) (s : State) :
    (beforeAccess sz o s).mem = s.mem := by unfold beforeAccess; split <;> rfl
@[simp] theorem beforeAccess_flags (sz : Size) (o : Operand) (s : State) :
    (beforeAccess sz o s).flags = s.flags := by unfold beforeAccess; split <;> rfl
@[simp] theorem beforeAccess_console (sz : Size) (o : Operand) (s : State) :
    (beforeAccess sz o s).console = s.console := by unfold beforeAccess; split <;> rfl
@[simp] theorem beforeAccess_alignLog (sz : Size) (o : Operand) (s : State) :
    (beforeAccess sz o s).alignLog = s.alignLog := by unfold beforeAccess; split <;> rfl
@[simp] theorem beforeAccess_outcome (sz : Size) (o : Operand) (s : State) :
    (beforeAccess sz o s).outcome = s.outcome := by unfold beforeAccess; split <;> rfl

/-- What the source operand keeps, where it is resolved: all but registers and AlignLog, and AlignLog
grows. -/
theorem srcValue_frame {sz : Size} {o : Operand} {b : Wide} {s t : State}
    (h : srcValue sz o s = .ok b t) :
    t.mem = s.mem ∧ t.flags = s.flags ∧ t.console = s.console ∧ t.params = s.params ∧
      t.outcome = s.outcome ∧ s.alignLog <+: t.alignLog := by
  obtain ⟨m, r⟩ := o
  cases m with
  | direct =>
    simp only [srcValue, Res.ok.injEq] at h
    obtain ⟨-, rfl⟩ := h; simp
  | indirect =>
    obtain ⟨v, hv, -⟩ := readOperand_eq_ok.mp h
    obtain ⟨-, -, rfl⟩ := memRead_eq_ok.mp hv
    simp [State.logAccess_alignLog]
  | autoInc =>
    obtain ⟨b', u, hu, e⟩ := Res.bind_eq_ok.mp h
    obtain ⟨v, hv, -⟩ := readOperand_eq_ok.mp hu
    obtain ⟨-, -, rfl⟩ := memRead_eq_ok.mp hv
    simp only [Res.ok.injEq] at e
    obtain ⟨-, rfl⟩ := e
    simp [State.logAccess_alignLog]
  | autoDec =>
    obtain ⟨v, hv, -⟩ := readOperand_eq_ok.mp h
    obtain ⟨-, -, rfl⟩ := memRead_eq_ok.mp hv
    simp [State.logAccess_alignLog]

/-- Where the source operand stops the step, and with what. -/
theorem srcValue_eq_stop {sz : Size} {o : Operand} {s : State} {f : Fault} :
    srcValue sz o s = .stop f ↔
      ¬ operandOk sz o s ∧ f = .memFault (operandAddr sz o s) (beforeAccess sz o s) := by
  obtain ⟨m, r⟩ := o
  cases m with
  | direct => simp [srcValue, operandOk]
  | indirect => simp [srcValue, operandOk, operandAddr, beforeAccess, readOperand_eq_stop]
  | autoInc =>
    simp [srcValue, operandOk, operandAddr, beforeAccess, Res.bind_eq_stop, readOperand_eq_stop]
  | autoDec =>
    simp only [srcValue, readOperand_eq_stop]
    simp [operandOk, operandAddr, beforeAccess, stepDown]

/-! ## The destination operand -/

/-- Where the destination is located, and the state that leaves. -/
theorem destLocate_eq (sz : Size) (o : Operand) (s : State) :
    destLocate sz o s =
      (if o.mode = .direct then Loc.reg o.reg else .mem (operandAddr sz o s),
        beforeAccess sz o s) := by
  obtain ⟨m, r⟩ := o
  cases m <;> simp [destLocate, operandAddr, beforeAccess, stepDown]

/-- What reading the destination can do. -/
theorem destRead_eq_ok {sz : Size} {l : Loc} {a : Wide} {s t : State}
    (h : destRead sz l s = .ok a t) :
    t.mem = s.mem ∧ t.flags = s.flags ∧ t.console = s.console ∧ t.params = s.params ∧
      t.outcome = s.outcome ∧ (∀ r, t.reg r = s.reg r) ∧ s.alignLog <+: t.alignLog := by
  cases l with
  | reg r =>
    simp only [destRead, Res.ok.injEq] at h
    obtain ⟨-, rfl⟩ := h; simp
  | mem ea =>
    obtain ⟨v, hv, -⟩ := readOperand_eq_ok.mp h
    obtain ⟨-, -, rfl⟩ := memRead_eq_ok.mp hv
    simp [State.logAccess_alignLog]

theorem destRead_eq_stop {sz : Size} {l : Loc} {s : State} {f : Fault} :
    destRead sz l s = .stop f ↔
      ∃ ea, l = .mem ea ∧ s.params.memSize ≤ ea.toNat ∧ f = .memFault ea s := by
  cases l <;> simp [destRead, readOperand_eq_stop]

/-- What writing the destination can do: a register takes the sign-extended result, or memory is
written. -/
theorem destWrite_eq_ok {sz : Size} {l : Loc} {r : Wide} {s t : State} :
    destWrite sz l r s = .ok () t ↔
      (∃ d, l = .reg d ∧ t = s.setReg d (sextSize sz r)) ∨
      (∃ ea, l = .mem ea ∧ memWrite sz ea (r.setWidth 32) s = .ok () t) := by
  cases l <;> simp [destWrite, eq_comm]

theorem destWrite_eq_stop {sz : Size} {l : Loc} {r : Wide} {s : State} {f : Fault} :
    destWrite sz l r s = .stop f ↔
      ∃ ea, l = .mem ea ∧ s.params.memSize ≤ ea.toNat ∧ f = .memFault ea s := by
  cases l <;> simp [destWrite, memWrite_eq_stop]

/-- What the destination's AutoIncrement does: one register, or nothing. -/
theorem destFinish_eq (sz : Size) (o : Operand) (s : State) :
    destFinish sz o s = if o.mode = .autoInc then stepUp sz o.reg s else s := by
  obtain ⟨m, r⟩ := o
  cases m <;> rfl

@[simp] theorem destFinish_flags (sz : Size) (o : Operand) (s : State) :
    (destFinish sz o s).flags = s.flags := by rw [destFinish_eq]; split <;> rfl
@[simp] theorem destFinish_mem (sz : Size) (o : Operand) (s : State) :
    (destFinish sz o s).mem = s.mem := by rw [destFinish_eq]; split <;> rfl
@[simp] theorem destFinish_console (sz : Size) (o : Operand) (s : State) :
    (destFinish sz o s).console = s.console := by rw [destFinish_eq]; split <;> rfl
@[simp] theorem destFinish_alignLog (sz : Size) (o : Operand) (s : State) :
    (destFinish sz o s).alignLog = s.alignLog := by rw [destFinish_eq]; split <;> rfl
@[simp] theorem destFinish_params (sz : Size) (o : Operand) (s : State) :
    (destFinish sz o s).params = s.params := by rw [destFinish_eq]; split <;> rfl
@[simp] theorem destFinish_outcome (sz : Size) (o : Operand) (s : State) :
    (destFinish sz o s).outcome = s.outcome := by rw [destFinish_eq]; split <;> rfl

/-! ## The templates of the two-operand instructions -/

/-- What a read-modify-write instruction that ends well has done, part by part. -/
theorem aluUpdate_eq_ok {f : Size → Wide → Wide → Wide} {kind : FlagKind} {sz : Size}
    {dst src : Operand} {s t : State} :
    aluUpdate f kind sz dst src s = .ok () t ↔ ∃ b s1 a s2 s3,
      srcValue sz src s = .ok b s1 ∧
      destRead sz (destLocate sz dst s1).1 (destLocate sz dst s1).2 = .ok a s2 ∧
      destWrite sz (destLocate sz dst s1).1 (masked sz (f sz a b)) s2 = .ok () s3 ∧
      t = (destFinish sz dst s3).setFlags (flagsOf kind sz (f sz a b) a b) := by
  simp only [aluUpdate, Res.bind_eq_ok, Res.ok.injEq]
  constructor
  · rintro ⟨b, s1, h1, a, s2, h2, u, s3, h3, -, rfl⟩
    exact ⟨b, s1, a, s2, s3, h1, h2, h3, rfl⟩
  · rintro ⟨b, s1, a, s2, s3, h1, h2, h3, rfl⟩
    exact ⟨b, s1, h1, a, s2, h2, (), s3, h3, trivial, rfl⟩

/-- What a move that ends well has done, part by part. -/
theorem aluMove_eq_ok {sz : Size} {dst src : Operand} {s t : State} :
    aluMove sz dst src s = .ok () t ↔ ∃ b s1 s2,
      srcValue sz src s = .ok b s1 ∧
      destWrite sz (destLocate sz dst s1).1 b (destLocate sz dst s1).2 = .ok () s2 ∧
      t = (destFinish sz dst s2).setFlags (flagsOf .other sz b 0 b) := by
  simp only [aluMove, Res.bind_eq_ok, Res.ok.injEq]
  constructor
  · rintro ⟨b, s1, h1, u, s2, h2, -, rfl⟩
    exact ⟨b, s1, s2, h1, h2, rfl⟩
  · rintro ⟨b, s1, s2, h1, h2, rfl⟩
    exact ⟨b, s1, h1, (), s2, h2, trivial, rfl⟩

/-- What a compare that ends well has done, part by part. -/
theorem aluCompare_eq_ok {f : Size → Wide → Wide → Wide} {kind : FlagKind} {sz : Size}
    {dst src : Operand} {s t : State} :
    aluCompare f kind sz dst src s = .ok () t ↔ ∃ b s1 a s2,
      srcValue sz src s = .ok b s1 ∧
      destRead sz (destLocate sz dst s1).1 (destLocate sz dst s1).2 = .ok a s2 ∧
      t = (destFinish sz dst s2).setFlags (flagsOf kind sz (f sz a b) a b) := by
  simp only [aluCompare, Res.bind_eq_ok, Res.ok.injEq]
  constructor
  · rintro ⟨b, s1, h1, a, s2, h2, -, rfl⟩
    exact ⟨b, s1, a, s2, h1, h2, rfl⟩
  · rintro ⟨b, s1, a, s2, h1, h2, rfl⟩
    exact ⟨b, s1, h1, a, s2, h2, trivial, rfl⟩

/-- What a division that ends well has done, part by part. -/
theorem divide_eq_ok {sz : Size} {dst src : Operand} {s t : State} :
    divide sz dst src s = .ok () t ↔ ∃ b s1 a s2 s3,
      srcValue sz src s = .ok b s1 ∧
      destRead sz (destLocate sz dst s1).1 (destLocate sz dst s1).2 = .ok a s2 ∧ b ≠ 0 ∧
      destWrite sz (destLocate sz dst s1).1 (quotient a b) s2 = .ok () s3 ∧
      t = (storeRemainder sz dst (remainder a b) (destFinish sz dst s3)).setFlags
        (flagsOf .other sz (quotient a b) a b) := by
  simp only [divide, Res.bind_eq_ok]
  constructor
  · rintro ⟨b, s1, h1, a, s2, h2, h⟩
    by_cases hb : b = 0
    · simp [hb] at h
    · rw [if_neg hb] at h
      simp only [Res.bind_eq_ok, Res.ok.injEq] at h
      obtain ⟨u, s3, h3, -, rfl⟩ := h
      exact ⟨b, s1, a, s2, s3, h1, h2, hb, h3, rfl⟩
  · rintro ⟨b, s1, a, s2, s3, h1, h2, hb, h3, rfl⟩
    refine ⟨b, s1, h1, a, s2, h2, ?_⟩
    rw [if_neg hb]
    simp only [Res.bind_eq_ok, Res.ok.injEq]
    exact ⟨(), s3, h3, trivial, rfl⟩

/-- The remainder touches one register, or nothing. -/
theorem storeRemainder_eq (sz : Size) (o : Operand) (rem : Wide) (s : State) :
    storeRemainder sz o rem s =
      if o.mode = .direct then s.setReg (o.reg + 1) (sextSize sz rem) else s := by
  obtain ⟨m, r⟩ := o
  cases m <;> rfl

end Sys2Proof.Machine
end

