-- ==== Sys2Proof/Laws/PerInstr.lean ====
section
/-! SUPPORT. A law of the syntax, one lemma for each instruction: the word that the encoder writes
under a legal encoding carries the opcode number of the instruction's mnemonic (30_encoding.md R61,
R66). -/

namespace Sys2Proof.Laws.EncodeOpcode

/-- The opcode byte of the encoded instruction is its number in the opcode map. -/
def Statement (i : Instr) : Prop :=
  ∀ e : Encoding, e.wf → opcodeOf e (encode e i) = opcodeNumber e (mnemonicOf i)

theorem hlt : Statement .hlt := fun _ he => opcodeOf_encodeNone he _
theorem nop : Statement .nop := fun _ he => opcodeOf_encodeNone he _
theorem ret : Statement .ret := fun _ he => opcodeOf_encodeNone he _
theorem bpt : Statement .bpt := fun _ he => opcodeOf_encodeNone he _
theorem clc : Statement .clc := fun _ he => opcodeOf_encodeNone he _
theorem clv : Statement .clv := fun _ he => opcodeOf_encodeNone he _
theorem clz : Statement .clz := fun _ he => opcodeOf_encodeNone he _
theorem cln : Statement .cln := fun _ he => opcodeOf_encodeNone he _
theorem sec : Statement .sec := fun _ he => opcodeOf_encodeNone he _
theorem sev : Statement .sev := fun _ he => opcodeOf_encodeNone he _
theorem sez : Statement .sez := fun _ he => opcodeOf_encodeNone he _
theorem sen : Statement .sen := fun _ he => opcodeOf_encodeNone he _
theorem jmp (sz : Size) (src : Operand) : Statement (.jmp sz src) :=
  fun _ he => opcodeOf_encodeOp he _ _ _ _ _ _
theorem jsr (sz : Size) (src : Operand) : Statement (.jsr sz src) :=
  fun _ he => opcodeOf_encodeOp he _ _ _ _ _ _
theorem mov (sz : Size) (dst src : Operand) : Statement (.mov sz dst src) :=
  fun _ he => opcodeOf_encodeOp he _ _ _ _ _ _
theorem add (sz : Size) (dst src : Operand) : Statement (.add sz dst src) :=
  fun _ he => opcodeOf_encodeOp he _ _ _ _ _ _
theorem sub (sz : Size) (dst src : Operand) : Statement (.sub sz dst src) :=
  fun _ he => opcodeOf_encodeOp he _ _ _ _ _ _
theorem cmp (sz : Size) (dst src : Operand) : Statement (.cmp sz dst src) :=
  fun _ he => opcodeOf_encodeOp he _ _ _ _ _ _
theorem mul (sz : Size) (dst src : Operand) : Statement (.mul sz dst src) :=
  fun _ he => opcodeOf_encodeOp he _ _ _ _ _ _
theorem div (sz : Size) (dst src : Operand) : Statement (.div sz dst src) :=
  fun _ he => opcodeOf_encodeOp he _ _ _ _ _ _
theorem and (sz : Size) (dst src : Operand) : Statement (.and sz dst src) :=
  fun _ he => opcodeOf_encodeOp he _ _ _ _ _ _
theorem or (sz : Size) (dst src : Operand) : Statement (.or sz dst src) :=
  fun _ he => opcodeOf_encodeOp he _ _ _ _ _ _
theorem xor (sz : Size) (dst src : Operand) : Statement (.xor sz dst src) :=
  fun _ he => opcodeOf_encodeOp he _ _ _ _ _ _
theorem lsl (sz : Size) (dst src : Operand) : Statement (.lsl sz dst src) :=
  fun _ he => opcodeOf_encodeOp he _ _ _ _ _ _
theorem lsr (sz : Size) (dst src : Operand) : Statement (.lsr sz dst src) :=
  fun _ he => opcodeOf_encodeOp he _ _ _ _ _ _
theorem asr (sz : Size) (dst src : Operand) : Statement (.asr sz dst src) :=
  fun _ he => opcodeOf_encodeOp he _ _ _ _ _ _
theorem br (d : BitVec 24) : Statement (.br d) := fun _ he => opcodeOf_encodeBt he _ _
theorem beq (d : BitVec 24) : Statement (.beq d) := fun _ he => opcodeOf_encodeBt he _ _
theorem bne (d : BitVec 24) : Statement (.bne d) := fun _ he => opcodeOf_encodeBt he _ _
theorem blt (d : BitVec 24) : Statement (.blt d) := fun _ he => opcodeOf_encodeBt he _ _
theorem bge (d : BitVec 24) : Statement (.bge d) := fun _ he => opcodeOf_encodeBt he _ _
theorem bgt (d : BitVec 24) : Statement (.bgt d) := fun _ he => opcodeOf_encodeBt he _ _
theorem ble (d : BitVec 24) : Statement (.ble d) := fun _ he => opcodeOf_encodeBt he _ _
theorem bhi (d : BitVec 24) : Statement (.bhi d) := fun _ he => opcodeOf_encodeBt he _ _
theorem blos (d : BitVec 24) : Statement (.blos d) := fun _ he => opcodeOf_encodeBt he _ _
theorem bcc (d : BitVec 24) : Statement (.bcc d) := fun _ he => opcodeOf_encodeBt he _ _
theorem bcs (d : BitVec 24) : Statement (.bcs d) := fun _ he => opcodeOf_encodeBt he _ _
theorem bmi (d : BitVec 24) : Statement (.bmi d) := fun _ he => opcodeOf_encodeBt he _ _
theorem bpl (d : BitVec 24) : Statement (.bpl d) := fun _ he => opcodeOf_encodeBt he _ _
theorem bvs (d : BitVec 24) : Statement (.bvs d) := fun _ he => opcodeOf_encodeBt he _ _
theorem bvc (d : BitVec 24) : Statement (.bvc d) := fun _ he => opcodeOf_encodeBt he _ _
theorem emt (d : BitVec 24) : Statement (.emt d) := fun _ he => opcodeOf_encodeBt he _ _

end Sys2Proof.Laws.EncodeOpcode
end

