-- ==== Sys2Proof/Laws/Step.lean ====
section
/-! SUPPORT. What the fetch and the step can do, said once. -/

namespace Sys2Proof.Machine

theorem fetch_eq_ok {s t : State} {w : Word} :
    fetch s = .ok w t ↔
      ∃ u, memRead .b32 s.pc s = .ok w u ∧ t = u.setPc (s.pc + 4) := by
  unfold fetch
  rw [Res.bind_eq_ok]
  constructor
  · rintro ⟨v, u, h, e⟩
    obtain ⟨-, -, rfl⟩ := memRead_eq_ok.mp h
    simp only [Res.ok.injEq] at e
    obtain ⟨rfl, rfl⟩ := e
    exact ⟨_, h, by simp⟩
  · rintro ⟨u, h, rfl⟩
    obtain ⟨-, -, rfl⟩ := memRead_eq_ok.mp h
    exact ⟨_, _, h, by simp⟩

theorem fetch_eq_stop {s : State} {f : Fault} :
    fetch s = .stop f ↔ s.params.memSize ≤ s.pc.toNat ∧ f = .memFault s.pc s := by
  unfold fetch
  rw [Res.bind_eq_stop, memRead_eq_stop]
  simp

theorem dispatch_of_decode {w : Word} {i : Instr} {s : State}
    (h : decode s.params.encoding w = .ok i) : dispatch w s = exec i s := by simp [dispatch, h]

theorem dispatch_of_error {w : Word} {err : DecodeError} {s : State}
    (h : decode s.params.encoding w = .error err) : dispatch w s = .fault (.unknown w s) := by simp [dispatch, h]

/-- A step that fetches outside memory. -/
theorem step_of_ge {s : State} (h : s.params.memSize ≤ s.pc.toNat) :
    step s = .fault (.memFault s.pc (s.setOutcome .continue)) := by
  have : fetch (s.setOutcome .continue) = .stop (.memFault s.pc (s.setOutcome .continue)) :=
    fetch_eq_stop.mpr ⟨by simpa using h, by simp⟩
  simp [step, runOneInstr, this]

/-- A step that fetches a word dispatches it with pc advanced by 4. -/
theorem step_of_lt {s : State} (h : s.pc.toNat < s.params.memSize) :
    step s = dispatch
      ((s.mem.word (s.pc.toNat / 4) >>> (8 * (s.pc.toNat % 4))) &&& wordMask .b32)
      (((s.setOutcome .continue).logAccess .b32 s.pc).setPc (s.pc + 4)) := by
  have : fetch (s.setOutcome .continue) = .ok
      ((s.mem.word (s.pc.toNat / 4) >>> (8 * (s.pc.toNat % 4))) &&& wordMask .b32)
      (((s.setOutcome .continue).logAccess .b32 s.pc).setPc (s.pc + 4)) :=
    fetch_eq_ok.mpr ⟨_, memRead_of_lt (s := s.setOutcome .continue) (by simpa using h), by simp⟩
  simp [step, runOneInstr, this]

/-- All that a step can be. -/
theorem step_cases (s : State) :
    (s.params.memSize ≤ s.pc.toNat ∧
      step s = .fault (.memFault s.pc (s.setOutcome .continue))) ∨
    ∃ w s1, s.pc.toNat < s.params.memSize ∧
      w = (s.mem.word (s.pc.toNat / 4) >>> (8 * (s.pc.toNat % 4))) &&& wordMask .b32 ∧
      s1 = ((s.setOutcome .continue).logAccess .b32 s.pc).setPc (s.pc + 4) ∧
      ((∃ i, decode s.params.encoding w = .ok i ∧ step s = exec i s1) ∨
       (∃ err, decode s.params.encoding w = .error err ∧ step s = .fault (.unknown w s1))) := by
  rcases Nat.lt_or_ge s.pc.toNat s.params.memSize with h | h
  · right
    refine ⟨_, _, h, rfl, rfl, ?_⟩
    rw [step_of_lt h]
    cases hd : decode s.params.encoding
      ((s.mem.word (s.pc.toNat / 4) >>> (8 * (s.pc.toNat % 4))) &&& wordMask .b32)
    · exact .inr ⟨_, rfl, dispatch_of_error (by simpa using hd)⟩
    · exact .inl ⟨_, rfl, dispatch_of_decode (by simpa using hd)⟩
  · exact .inl ⟨h, step_of_ge h⟩

end Sys2Proof.Machine
end

