-- ==== Sys2Proof/Laws/Values.lean ====
section
/-! SUPPORT. The bridge between the masks and shifts of the meanings and the numbers and bytes in which
Safety.lean speaks: one lemma for each of the two views of a value. -/

namespace Sys2Proof.Machine

/-! ## Sizes -/

theorem sizeModulus_pos (sz : Size) : 0 < sizeModulus sz := by cases sz <;> decide
theorem sizeModulus_le (sz : Size) : sizeModulus sz ≤ 2 ^ 32 := by cases sz <;> decide
theorem two_pow_sizeBits (sz : Size) : 2 ^ sizeBits sz = sizeModulus sz := rfl
theorem sizeModulus_b8 : sizeModulus .b8 = 256 := rfl
theorem sizeModulus_b16 : sizeModulus .b16 = 65536 := rfl
theorem sizeModulus_b32 : sizeModulus .b32 = 4294967296 := rfl

/-! ## Memory words in bytes -/

/-- A memory word as the number that its four bytes make (20_memory.md R41). -/
theorem Memory.word_toNat (m : Memory) (i : Nat) :
    (m.word i).toNat = (m.get (4 * i)).toNat + 256 * (m.get (4 * i + 1)).toNat +
      65536 * (m.get (4 * i + 2)).toNat + 16777216 * (m.get (4 * i + 3)).toNat := by
  have h0 := (m.get (4 * i)).isLt
  have h1 := (m.get (4 * i + 1)).isLt
  have h2 := (m.get (4 * i + 2)).isLt
  have join : ∀ x y : Nat, y < 2 ^ 8 → x * 2 ^ 8 ||| y = x * 2 ^ 8 + y := by
    intro x y hy
    rw [Nat.mul_comm, ← Nat.two_pow_add_eq_or_of_lt hy]
  simp only [Memory.word, BitVec.toNat_append, Nat.shiftLeft_eq]
  rw [join _ _ h2, join _ _ h1, join _ _ h0]
  omega

/-- Byte j of a memory word (20_memory.md R41). -/
theorem Memory.extractLsb'_word (m : Memory) (i j : Nat) (hj : j < 4) :
    (m.word i).extractLsb' (8 * j) 8 = m.get (4 * i + j) := by
  have key : ∀ b0 b1 b2 b3 : Byte, (b3 ++ b2 ++ b1 ++ b0 : BitVec 32).extractLsb' (8 * j) 8 =
      if j = 0 then b0 else if j = 1 then b1 else if j = 2 then b2 else b3 := by
    intro b0 b1 b2 b3
    interval_cases j <;>
    · apply BitVec.eq_of_getLsbD_eq
      intro i hi
      simp only [BitVec.getLsbD_extractLsb', BitVec.getLsbD_append]
      interval_cases i <;> simp
  simp only [Memory.word]
  rw [key]
  interval_cases j <;> simp

theorem and_wordMask_toNat (sz : Size) (w : Word) :
    (w &&& wordMask sz).toNat = w.toNat % sizeModulus sz := by
  cases sz <;> simp only [wordMask, sizeBits, sizeBytes, sizeModulus, BitVec.toNat_and]
  · exact Nat.and_two_pow_sub_one_eq_mod _ 8
  · exact Nat.and_two_pow_sub_one_eq_mod _ 16
  · exact Nat.and_two_pow_sub_one_eq_mod _ 32

/-- Byte j of the word after a masked read-modify-write at offset o: the bytes of the value from o to
the end of the access or of the word, the old bytes elsewhere (20_memory.md R45). -/
theorem mergeWord_byte (sz : Size) (o : Nat) (ho : o < 4) (v old : Word) (j : Nat) (hj : j < 4) :
    (mergeWord sz o v old).extractLsb' (8 * j) 8 =
      if o ≤ j ∧ j < o + min (sizeBytes sz) (4 - o) then BitVec.ofNat 8 (v.toNat / 256 ^ (j - o))
      else old.extractLsb' (8 * j) 8 := by
  have digit : ∀ k, BitVec.ofNat 8 (v.toNat / 256 ^ k) = v.extractLsb' (8 * k) 8 := by
    intro k
    apply BitVec.eq_of_toNat_eq
    simp [BitVec.extractLsb', Nat.shiftRight_eq_div_pow, pow_mul]
  have mask : ∀ q, (wordMask sz).getLsbD q = decide (q < sizeBits sz) := by
    intro q
    have h32 : sizeBits sz ≤ 32 := by cases sz <;> decide
    rw [wordMask, BitVec.getLsbD_ofNat, Nat.testBit_two_pow_sub_one]
    by_cases h : q < sizeBits sz
    · simp [h]; omega
    · simp [h]
  have hs : sizeBits sz = 8 * sizeBytes sz := rfl
  rw [digit]
  apply BitVec.eq_of_getLsbD_eq
  intro i hi
  by_cases h : o ≤ j ∧ j < o + min (sizeBytes sz) (4 - o)
  · have h1 : ¬ 8 * j + i < 8 * o := by omega
    have h2 : 8 * j + i - 8 * o < sizeBits sz := by omega
    have h3 : 8 * j + i < 32 := by omega
    have h4 : 8 * j + i - 8 * o = 8 * (j - o) + i := by omega
    rw [if_pos h]
    simp only [mergeWord, BitVec.getLsbD_extractLsb', BitVec.getLsbD_or, BitVec.getLsbD_and,
      BitVec.getLsbD_not, BitVec.getLsbD_shiftLeft, mask, hi, h1, h2, h3]
    simp [h4]
  · have h1 : 8 * j + i < 8 * o ∨ ¬ 8 * j + i - 8 * o < sizeBits sz := by omega
    have h3 : 8 * j + i < 32 := by omega
    rw [if_neg h]
    simp only [mergeWord, BitVec.getLsbD_extractLsb', BitVec.getLsbD_or, BitVec.getLsbD_and,
      BitVec.getLsbD_not, BitVec.getLsbD_shiftLeft, mask, hi, h3]
    rcases h1 with h1 | h1 <;> simp [h1]

/-- The value of an access and the byte of an address depend on the memory alone. -/
theorem memValue_congr {sz : Size} {a : Nat} {s t : State} (h : s.mem = t.mem) :
    memValue sz a s = memValue sz a t := by
  have key : ∀ k a, readBytes s k a = readBytes t k a := by
    intro k
    induction k with
    | zero => intro a; rfl
    | succ k ih => intro a; simp [readBytes, ih, State.byte_eq, h]
  simp [memValue, key]

theorem logAccess_eq (s : State) (sz : Size) (a : Word) :
    s.logAccess sz a = { s with alignLog := s.alignLog ++ accessEntry sz a } := by
  unfold State.logAccess accessEntry misaligned
  by_cases h : a.toNat % sizeBytes sz = 0 <;> simp [h]

/-! ## Wide values and flags -/

theorem masked_toNat (sz : Size) (w : Wide) : (masked sz w).toNat = w.toNat % sizeModulus sz := by
  cases sz <;> simp only [masked, wideMask, sizeBits, sizeBytes, sizeModulus, BitVec.toNat_and]
  · exact Nat.and_two_pow_sub_one_eq_mod _ 8
  · exact Nat.and_two_pow_sub_one_eq_mod _ 16
  · exact Nat.and_two_pow_sub_one_eq_mod _ 32

theorem negative_iff {sz : Size} {v : Nat} : negative sz v = true ↔ sizeModulus sz / 2 ≤ v := by
  simp [negative]

theorem negative_eq_iff {sz : Size} {a b : Nat} :
    negative sz a = negative sz b ↔ (sizeModulus sz / 2 ≤ a ↔ sizeModulus sz / 2 ≤ b) := by
  simp [negative]

theorem signedOverflow_iff {sz : Size} {x : Int} : signedOverflow sz x = true ↔
    x < -((sizeModulus sz / 2 : Nat) : Int) ∨ ((sizeModulus sz / 2 : Nat) : Int) ≤ x := by
  simp only [signedOverflow, decide_eq_true_eq]

theorem signedValue_eq (sz : Size) (v : Nat) : signedValue sz v =
    if sizeModulus sz / 2 ≤ v then (v : Int) - sizeModulus sz else v := by
  simp only [signedValue, negative_iff]

/-- The sign bit of a wide value's low S bits, as a number's sign. -/
theorem signBit_eq (sz : Size) (w : Wide) :
    signBit sz w = negative sz (w.toNat % sizeModulus sz) := by
  rw [Bool.eq_iff_iff, negative_iff, signBit, BitVec.getLsbD, Nat.testBit_eq_decide_div_mod_eq,
    decide_eq_true_eq]
  have e1 : 8 * 1 - 1 = 7 := rfl
  have e2 : 8 * 2 - 1 = 15 := rfl
  have e3 : 8 * 4 - 1 = 31 := rfl
  cases sz <;>
    simp only [sizeBits, sizeBytes, sizeModulus_b8, sizeModulus_b16, sizeModulus_b32, e1, e2, e3] <;>
    norm_num <;> omega

/-- The sign extension of a wide value whose low S bits are the number v. -/
theorem sextSize_eq {sz : Size} {v : Nat} {r : Wide} (hr : r.toNat % sizeModulus sz = v) :
    sextSize sz r = sextNat sz v := by
  have hv : v < sizeModulus sz := hr ▸ Nat.mod_lt _ (sizeModulus_pos sz)
  have low : sextSize sz r = (BitVec.ofNat (sizeBits sz) v).signExtend 32 := by
    unfold sextSize
    congr 1
    apply BitVec.eq_of_toNat_eq
    simp [← hr, sizeModulus]
  have high : sextNat sz v =
      BitVec.ofNat 32 (if sizeModulus sz / 2 ≤ v then v + 2 ^ 32 - sizeModulus sz else v) := by
    simp [sextNat, negative]
  rw [low, high]
  apply BitVec.eq_of_toNat_eq
  cases sz <;>
    simp [sizeModulus, sizeBits, sizeBytes, BitVec.toNat_signExtend, BitVec.msb_eq_decide] at * <;>
    split <;> (try split) <;> omega

/-- The four flags of a wide result, as numbers: r the result, a and b the operands
(40_step_and_operands.md R112). -/
theorem flagsOf_eq {kind : FlagKind} {sz : Size} {w a b : Wide} {r : Nat}
    (hr : w.toNat % sizeModulus sz = r) : flagsOf kind sz w a b =
      resultFlags sz r
        (overflowOf kind (negative sz (a.toNat % sizeModulus sz))
          (negative sz (b.toNat % sizeModulus sz)) (negative sz r))
        (decide (w.toNat / sizeModulus sz % 2 = 1)) := by
  have em : (masked sz w).toNat = r := by rw [masked_toNat, hr]
  have hlt : r < sizeModulus sz := hr ▸ Nat.mod_lt _ (sizeModulus_pos sz)
  have hz : (masked sz w == 0) = decide (r = 0) := by
    rw [Bool.eq_iff_iff, beq_iff_eq, decide_eq_true_eq]
    constructor
    · intro h; rw [h] at em; simpa using em.symm
    · intro h; apply BitVec.eq_of_toNat_eq; rw [em, h]; rfl
  simp only [flagsOf, resultFlags, signBit_eq, em, Nat.mod_eq_of_lt hlt, hz, BitVec.getLsbD,
    Nat.testBit_eq_decide_div_mod_eq, two_pow_sizeBits]
  rfl

/-! ## States -/

/-- Two states are equal where every register and every other field is. -/
theorem State.ext_reg {s t : State} (h1 : ∀ r, s.reg r = t.reg r) (h2 : s.flags = t.flags)
    (h3 : s.mem = t.mem) (h4 : s.console = t.console) (h5 : s.alignLog = t.alignLog)
    (h6 : s.params = t.params) (h7 : s.outcome = t.outcome) : s = t := by
  cases s
  cases t
  simp only [State.reg] at *
  subst h2 h3 h4 h5 h6 h7
  congr 1
  apply Vector.ext
  intro i hi
  have := h1 ⟨i, hi⟩
  simpa [Vector.get_eq_getElem] using this

@[simp] theorem State.withAlignLog_reg (s : State) (l : List (Word × Nat)) (r : RegId) :
    ({ s with alignLog := l } : State).reg r = s.reg r := rfl

@[simp] theorem afterSource_mem (sz : Size) (o : Operand) (s : State) :
    (afterSource sz o s).mem = s.mem := rfl
@[simp] theorem afterSource_flags (sz : Size) (o : Operand) (s : State) :
    (afterSource sz o s).flags = s.flags := rfl
@[simp] theorem afterSource_console (sz : Size) (o : Operand) (s : State) :
    (afterSource sz o s).console = s.console := rfl
@[simp] theorem afterSource_params (sz : Size) (o : Operand) (s : State) :
    (afterSource sz o s).params = s.params := rfl
@[simp] theorem afterSource_outcome (sz : Size) (o : Operand) (s : State) :
    (afterSource sz o s).outcome = s.outcome := rfl
@[simp] theorem afterSource_alignLog (sz : Size) (o : Operand) (s : State) :
    (afterSource sz o s).alignLog = s.alignLog ++ operandEntry sz o s := rfl

/-- Every register after the source operand has been resolved. -/
theorem afterSource_reg (sz : Size) (o : Operand) (s : State) (r : RegId) :
    (afterSource sz o s).reg r = s.reg r + sideEffect sz o r := by
  unfold afterSource
  rw [State.withAlignLog_reg, State.reg_setReg]
  split
  · next h => rw [h]
  · next h => simp [sideEffect, h]

/-- Every register when an operand's access happens. -/
theorem beforeAccess_reg_eq (sz : Size) (o : Operand) (s : State) (r : RegId) :
    (beforeAccess sz o s).reg r =
      s.reg r + if o.mode = .autoDec then sideEffect sz o r else 0 := by
  unfold beforeAccess sideEffect
  split
  · next h =>
    simp only [stepDown_reg, h]
    split <;> simp_all [BitVec.sub_eq_add_neg]
  · simp

end Sys2Proof.Machine
end

