-- ==== Sys2Proof/Tests/Slice0.lean ====
section
/-! SUPPORT. The model's own tests: ill-formed terms, words written out from the encoding tables, single
steps whose results stand in 95_test_vectors.md, and for each obligation with hypotheses a state and
operands that meet them. -/

namespace Sys2Proof.Tests.Slice0

open Sys2Proof Sys2Proof.Machine

/-! ## Ill-formed terms -/

/-- 30_encoding.md R88: DIV with a Direct destination R15 is refused, at every size; its neighbours,
R14 and R15 in a memory mode, are not. -/
theorem test_wellFormed_refuses_div_into_pc :
    Instr.wellFormed (.div .b32 ⟨.direct, 15⟩ ⟨.direct, 0⟩) = false ∧
    Instr.wellFormed (.div .b8 ⟨.direct, 15⟩ ⟨.autoInc, 15⟩) = false ∧
    Instr.wellFormed (.div .b32 ⟨.direct, 14⟩ ⟨.direct, 0⟩) = true ∧
    Instr.wellFormed (.div .b32 ⟨.indirect, 15⟩ ⟨.direct, 0⟩) = true ∧
    Instr.wellFormed (.mul .b32 ⟨.direct, 15⟩ ⟨.direct, 0⟩) = true := by decide

/-- 00_scope.md R6: the sizes of memory that the parameter allows. -/
theorem test_params_wf_bounds :
    Params.wf ⟨4, 0, Encoding.spec⟩ ∧ Params.wf ⟨2 ^ 32, 0, Encoding.spec⟩ ∧
    ¬ Params.wf ⟨0, 0, Encoding.spec⟩ ∧ ¬ Params.wf ⟨6, 0, Encoding.spec⟩ ∧
    ¬ Params.wf ⟨2 ^ 32 + 4, 0, Encoding.spec⟩ :=
  ⟨by decide, by decide, by decide, by decide, by decide⟩

/-- Another legal encoding: the opcode in bits 31:24 and every number of the map complemented, d24 below
it, the operand fields in the opposite order, size codes 3, 2, 1, mode codes 3 to 0. -/
def flipped : Encoding where
  opcodes := opcodeMap.map fun row => (~~~row.1, row.2)
  opLo := 24
  szLo := 12
  dmLo := 10
  smLo := 8
  drLo := 4
  srLo := 0
  d24Lo := 0
  size8 := 3
  size16 := 2
  size32 := 1
  direct := 3
  indirect := 2
  autoInc := 1
  autoDec := 0

/-- 00_scope.md R6: the spec's tables and others are an encoding; tables with an opcode byte or a mnemonic
twice, a mnemonic missing, fields that overlap or leave the word, or a code twice are none. -/
theorem test_encoding_wf_refuses :
    Encoding.spec.wf ∧ flipped.wf ∧
    ¬ Encoding.wf { Encoding.spec with opcodes := (0x00, .nop) :: opcodeMap.tail } ∧
    ¬ Encoding.wf { Encoding.spec with opcodes := (0x01, .hlt) :: opcodeMap.tail } ∧
    ¬ Encoding.wf { Encoding.spec with opcodes := opcodeMap.tail } ∧
    ¬ Encoding.wf { Encoding.spec with smLo := 11 } ∧
    ¬ Encoding.wf { Encoding.spec with srLo := 29 } ∧
    ¬ Encoding.wf { Encoding.spec with d24Lo := 7 } ∧
    ¬ Encoding.wf { Encoding.spec with size16 := 0 } ∧
    ¬ Encoding.wf { Encoding.spec with autoDec := 0 } := by
  repeat' apply And.intro
  all_goals decide

/-- A memory out of order, with a repeat, or with an entry that an unlisted address reads as anyway. -/
theorem test_memory_wf_refuses :
    Memory.wf [(1, 5), (2, 5)] ∧ ¬ Memory.wf [(2, 5), (1, 5)] ∧ ¬ Memory.wf [(1, 5), (1, 6)] ∧
    ¬ Memory.wf [(1, 0)] := by decide

/-! ## Words written out from 30_encoding.md R61 to R66 -/

/-- The decoder at the spec's own tables. -/
abbrev specDecode : Word → Except DecodeError Instr := decode Encoding.spec

/-- The none class: the opcode byte, bits 31:8 ignored (R64). -/
theorem test_decode_none_class :
    specDecode 0x00000000 = .ok .hlt ∧ specDecode 0x00000001 = .ok .nop ∧ specDecode 0x00000002 = .ok .ret ∧
    specDecode 0x00000003 = .ok .bpt ∧ specDecode 0x00000004 = .ok .clc ∧ specDecode 0x00000005 = .ok .clv ∧
    specDecode 0x00000006 = .ok .clz ∧ specDecode 0x00000007 = .ok .cln ∧ specDecode 0x00000008 = .ok .sec ∧
    specDecode 0x00000009 = .ok .sev ∧ specDecode 0x0000000A = .ok .sez ∧ specDecode 0x0000000B = .ok .sen ∧
    specDecode 0xABCDEF00 = .ok .hlt ∧ specDecode 0x12345601 = .ok .nop := by
  repeat' apply And.intro
  all_goals rfl

/-- The one-operand class; the last word has every bit of dm and dr set (R79). -/
theorem test_decode_one_operand :
    specDecode 0x000C0210 = .ok (.jmp .b32 ⟨.direct, 3⟩) ∧
    specDecode 0x003C2211 = .ok (.jsr .b32 ⟨.autoInc, 15⟩) ∧
    specDecode 0x00383111 = .ok (.jsr .b16 ⟨.autoDec, 14⟩) ∧
    specDecode 0x000FDE10 = .ok (.jmp .b32 ⟨.indirect, 3⟩) := by
  repeat' apply And.intro
  all_goals rfl

/-- The two-operand class, one word for each opcode; the modes and registers differ. -/
theorem test_decode_two_operand :
    specDecode 0x0010C520 = .ok (.mov .b16 ⟨.indirect, 3⟩ ⟨.direct, 4⟩) ∧
    specDecode 0x00196A21 = .ok (.add .b32 ⟨.autoInc, 5⟩ ⟨.autoInc, 6⟩) ∧
    specDecode 0x0021DD22 = .ok (.sub .b16 ⟨.autoDec, 7⟩ ⟨.indirect, 8⟩) ∧
    specDecode 0x002A7823 = .ok (.cmp .b8 ⟨.autoInc, 9⟩ ⟨.autoDec, 10⟩) ∧
    specDecode 0x0032D224 = .ok (.mul .b32 ⟨.direct, 11⟩ ⟨.indirect, 12⟩) ∧
    specDecode 0x000C4225 = .ok (.div .b32 ⟨.direct, 1⟩ ⟨.direct, 3⟩) ∧
    specDecode 0x00034526 = .ok (.and .b16 ⟨.indirect, 13⟩ ⟨.direct, 0⟩) ∧
    specDecode 0x003BAE27 = .ok (.or .b32 ⟨.autoDec, 14⟩ ⟨.autoInc, 14⟩) ∧
    specDecode 0x003FC228 = .ok (.xor .b32 ⟨.direct, 15⟩ ⟨.direct, 15⟩) ∧
    specDecode 0x00084029 = .ok (.lsl .b8 ⟨.direct, 1⟩ ⟨.direct, 2⟩) ∧
    specDecode 0x0008662A = .ok (.lsr .b32 ⟨.indirect, 1⟩ ⟨.autoInc, 2⟩) ∧
    specDecode 0x00087D2B = .ok (.asr .b16 ⟨.autoDec, 1⟩ ⟨.autoDec, 2⟩) := by
  repeat' apply And.intro
  all_goals rfl

/-- Layout BT: branches and EMT with bits 31:8 as one field (R63). -/
theorem test_decode_branch_and_trap :
    specDecode 0xFFFFF840 = .ok (.br 0xFFFFF8) ∧ specDecode 0x00000C41 = .ok (.beq 0x00000C) ∧
    specDecode 0xFFFFFC42 = .ok (.bne 0xFFFFFC) ∧ specDecode 0x80000043 = .ok (.blt 0x800000) ∧
    specDecode 0x00000344 = .ok (.bge 3) ∧ specDecode 0x00010045 = .ok (.bgt 0x000100) ∧
    specDecode 0x01000046 = .ok (.ble 0x010000) ∧ specDecode 0x00000147 = .ok (.bhi 1) ∧
    specDecode 0x00000248 = .ok (.blos 2) ∧ specDecode 0x00000449 = .ok (.bcc 4) ∧
    specDecode 0x0000084A = .ok (.bcs 8) ∧ specDecode 0x0000104B = .ok (.bmi 16) ∧
    specDecode 0x0000204C = .ok (.bpl 32) ∧ specDecode 0x0000404D = .ok (.bvs 64) ∧
    specDecode 0x7FFFFF4E = .ok (.bvc 0x7FFFFF) ∧ specDecode 0xFFFFFF50 = .ok (.emt 0xFFFFFF) := by
  repeat' apply And.intro
  all_goals rfl

/-- The words that are no instruction, each by its reason (R74, R75, R88; R228 for the order). -/
theorem test_decode_refuses :
    specDecode 0x0000000C = .error (.unknownOpcode 0x0C) ∧
    specDecode 0x0000001F = .error (.unknownOpcode 0x1F) ∧
    specDecode 0x0000002C = .error (.unknownOpcode 0x2C) ∧
    specDecode 0x0000004F = .error (.unknownOpcode 0x4F) ∧
    specDecode 0x00000051 = .error (.unknownOpcode 0x51) ∧
    specDecode 0xFFFFFFFF = .error (.unknownOpcode 0xFF) ∧
    specDecode 0x00084320 = .error .reservedSize ∧ specDecode 0x00000310 = .error .reservedSize ∧
    specDecode 0x0003C225 = .error .divIntoPc ∧ specDecode 0x0003C325 = .error .reservedSize ∧
    specDecode 0x00000340 = .ok (.br 3) := by
  repeat' apply And.intro
  all_goals rfl

/-- The table's word of `mov r1, #7`, two words long, and one too short to be one. -/
theorem test_decodeTableWord :
    decodeTableWord 32 0x003C6220 = some (.mov .b32 ⟨.direct, 1⟩ ⟨.autoInc, 15⟩) ∧
    decodeTableWord 8 0x02 = some .ret ∧ decodeTableWord 32 0x51 = none := by
  repeat' apply And.intro
  all_goals rfl

/-! ## Single steps -/

/-- The start state of the vectors of 95_test_vectors.md: the instruction's word at 0x100, pc there,
the registers and memory words named, all else 0. -/
def start (word : Word) (regs : List (RegId × Word)) (words : List (Nat × Word) := []) : State :=
  let s := regs.foldl (fun s x => s.setReg x.1 x.2) (State.reset.setPc 0x100)
  { s with mem := ((0x100, word) :: words).foldl (fun m x => m.setWord (x.1 / 4) x.2) [] }

/-- Image M1 of 95_test_vectors.md. -/
def imageM1 : List (Nat × Word) := [(0x1FC, 0xCCDDEEFF), (0x200, 0x11223344), (0x204, 0x8899AABB)]

/-- N, Z, V, C as the vectors write them. -/
def nzvc (n z v c : Nat) : Flags := ⟨n == 1, z == 1, v == 1, c == 1⟩

/-- What one step leaves, where it ends in a next state. -/
def after {α : Type} (s : State) (f : State → α) : Option α :=
  match step s with
  | .next t => some (f t)
  | .fault _ => none
  | .refused _ => none

/-- What one step leaves, where it ends in a fault: the state left behind, and the fault's own word or
address. -/
def failing {α : Type} (s : State) (f : State → α) : Option (Option Word × α) :=
  match step s with
  | .next _ => none
  | .fault (.memFault a t) => some (some a, f t)
  | .fault (.unknown w t) => some (some w, f t)
  | .fault (.divideError t) => some (none, f t)
  | .refused _ => none

theorem test_mov_byte_register_sign_extends :
    after (start 0x00084020 [(2, 0x12345680)]) (fun t => (t.reg 1, t.pc, t.flags)) =
      some (0xFFFFFF80, 0x104, nzvc 1 0 0 0) := by decide
theorem test_mov_two_immediates :
    after (start 0x003FEA20 [] [(0x104, 0x55)]) (fun t => (t.pc, t.mem.word (0x108 / 4))) =
      some (0x10C, 0x55) := by decide
theorem test_add_overflows :
    after (start 0x00084221 [(1, 0x7FFFFFFF), (2, 1)]) (fun t => (t.reg 1, t.flags)) =
      some (0x80000000, nzvc 1 0 1 0) := by decide
theorem test_add_same_register_stepped_first :
    after (start 0x00046A21 [(1, 0x200)] imageM1)
      (fun t => (t.reg 1, t.mem.word (0x204 / 4), t.flags)) =
      some (0x208, 0x99BBDDFF, nzvc 1 0 0 0) := by decide
theorem test_sub_byte_borrows_and_overflows :
    after (start 0x00084022 [(1, 0x7F), (2, 0x80)]) (fun t => (t.reg 1, t.flags)) =
      some (0xFFFFFFFF, nzvc 1 0 1 1) := by decide
theorem test_sub_predecrements_twice :
    after (start 0x00047E22 [(1, 0x204)] imageM1)
      (fun t => (t.reg 1, t.mem.word (0x1FC / 4))) = some (0x1FC, 0xBBBBBBBB) := by decide
theorem test_cmp_overflow_is_not_subs :
    after (start 0x00084223 [(1, 0x80000000), (2, 1)]) (fun t => (t.reg 1, t.flags)) =
      some (0x80000000, nzvc 0 0 0 0) := by decide
theorem test_cmp_byte_steps_both_operands :
    after (start 0x00087C23 [(1, 0x201), (2, 0x205)] imageM1)
      (fun t => (t.reg 1, t.reg 2, t.flags)) = some (0x200, 0x204, nzvc 1 0 0 1) := by decide
theorem test_mul_carry_is_one_bit :
    after (start 0x00084224 [(1, 0x80000000), (2, 3)]) (fun t => (t.reg 1, t.flags)) =
      some (0x80000000, nzvc 1 0 0 1) := by decide
theorem test_mul_high_bits_do_not_carry :
    after (start 0x00084024 [(1, 0xFF), (2, 0xFF)]) (fun t => (t.reg 1, t.flags)) =
      some (1, nzvc 0 0 0 0) := by decide
theorem test_div_into_sp_writes_pc_last :
    after (start 0x000F8225 [(3, 0x300), (14, 0x1000)]) (fun t => (t.sp, t.pc)) =
      some (5, 0x100) := by decide
theorem test_div_by_zero_keeps_side_effect :
    failing (start 0x000C6225 [(1, 9), (3, 0x208)]) (fun t => (t.reg 1, t.reg 3, t.pc)) =
      some (none, 9, 0x20C, 0x104) := by decide
theorem test_and_16 :
    after (start 0x00084126 [(1, 0x1234F0F0), (2, 0x0000FF00)]) (fun t => (t.reg 1, t.flags)) =
      some (0xFFFFF000, nzvc 1 0 0 0) := by decide
theorem test_or_32 :
    after (start 0x00084227 [(1, 0xF0F0F0F0), (2, 0x0F0F0F0F)]) (fun t => (t.reg 1, t.flags)) =
      some (0xFFFFFFFF, nzvc 1 0 0 0) := by decide
theorem test_xor_same_register_is_zero :
    after (start 0x00044228 [(1, 0x1234)]) (fun t => (t.reg 1, t.flags)) =
      some (0, nzvc 0 1 0 0) := by decide
theorem test_lsl_by_the_size :
    after (start 0x00084029 [(1, 1), (2, 8)]) (fun t => (t.reg 1, t.flags)) =
      some (0, nzvc 0 1 0 1) := by decide
theorem test_lsl_beyond_64 :
    after (start 0x00084229 [(1, 0xFFFFFFFF), (2, 65)]) (fun t => (t.reg 1, t.flags)) =
      some (0, nzvc 0 1 0 0) := by decide
theorem test_lsr_carry_is_clear :
    after (start 0x0008422A [(1, 0x80000001), (2, 1)]) (fun t => (t.reg 1, t.flags)) =
      some (0x40000000, nzvc 0 0 0 0) := by decide
theorem test_asr_beyond_the_size :
    after (start 0x0008412B [(1, 0x00008000), (2, 0x100)]) (fun t => (t.reg 1, t.flags)) =
      some (0xFFFFFFFF, nzvc 1 0 0 0) := by decide

/-- 43_flag_ops.md: the clears from all flags set, the sets from all clear. -/
theorem test_flag_instructions :
    after { start 0x04 [] with flags := nzvc 1 1 1 1 } State.flags = some (nzvc 1 1 1 0) ∧
    after { start 0x05 [] with flags := nzvc 1 1 1 1 } State.flags = some (nzvc 1 1 0 1) ∧
    after { start 0x06 [] with flags := nzvc 1 1 1 1 } State.flags = some (nzvc 1 0 1 1) ∧
    after { start 0x07 [] with flags := nzvc 1 1 1 1 } State.flags = some (nzvc 0 1 1 1) ∧
    after (start 0x08 []) State.flags = some (nzvc 0 0 0 1) ∧
    after (start 0x09 []) State.flags = some (nzvc 0 0 1 0) ∧
    after (start 0x0A []) State.flags = some (nzvc 0 1 0 0) ∧
    after (start 0x0B []) State.flags = some (nzvc 1 0 0 0) := by decide

theorem test_jmp_immediate :
    after (start 0x003C2210 [] [(0x104, 0x140)]) State.pc = some 0x140 := by decide
theorem test_jmp_byte_is_zero_extended :
    after (start 0x00080010 [(2, 0x12345680)]) State.pc = some 0x80 := by decide
theorem test_jsr_immediate_pushes_the_address_behind :
    after (start 0x003C2211 [(14, 0x1000)] [(0x104, 0x200)])
      (fun t => (t.pc, t.sp, t.mem.word (0xFFC / 4))) = some (0x200, 0xFFC, 0x108) := by decide
theorem test_jsr_push_outside_memory :
    failing (start 0x000C0211 [(3, 0x200)]) (fun t => (t.pc, t.sp)) =
      some (some 0xFFFFFFFC, 0x104, 0xFFFFFFFC) := by decide
theorem test_ret_pops :
    after (start 0x02 [(14, 0xFFC)] [(0xFFC, 0x108)]) (fun t => (t.pc, t.sp)) =
      some (0x108, 0x1000) := by decide
theorem test_ret_outside_memory :
    failing (start 0x02 [(14, 0x10000)]) (fun t => (t.pc, t.sp)) =
      some (some 0x10000, 0x104, 0x10000) := by decide

theorem test_br_backward :
    after (start 0xFFFFF840 []) State.pc = some 0xFC := by decide

/-- Each conditional branch by 16 with each of the flags alone and with none: taken to 0x114. -/
def takenWith (op : Nat) (f : Flags) : Option Bool :=
  after { start (BitVec.ofNat 32 (0x1000 + op)) [] with flags := f } (fun t => t.pc == 0x114)

/-- What the conditions of 45_branches.md say of no flag, N, Z, V, C, and of N with V. -/
def conditionRow (op : Nat) : List (Option Bool) :=
  [nzvc 0 0 0 0, nzvc 1 0 0 0, nzvc 0 1 0 0, nzvc 0 0 1 0, nzvc 0 0 0 1, nzvc 1 0 1 0].map
    (takenWith op)

theorem test_equality_branches :
    conditionRow 0x41 = [some false, some false, some true, some false, some false, some false] ∧
    conditionRow 0x42 = [some true, some true, some false, some true, some true, some true] := by
  decide
theorem test_signed_branches :
    conditionRow 0x43 = [some false, some true, some false, some true, some false, some false] ∧
    conditionRow 0x44 = [some true, some false, some true, some false, some true, some true] ∧
    conditionRow 0x45 = [some true, some false, some false, some false, some true, some true] ∧
    conditionRow 0x46 = [some false, some true, some true, some true, some false, some false] := by
  decide
theorem test_unsigned_branches :
    conditionRow 0x47 = [some true, some true, some false, some true, some false, some true] ∧
    conditionRow 0x48 = [some false, some false, some true, some false, some true, some false] ∧
    conditionRow 0x49 = [some true, some true, some true, some true, some false, some true] ∧
    conditionRow 0x4A = [some false, some false, some false, some false, some true, some false] := by
  decide
theorem test_single_flag_branches :
    conditionRow 0x4B = [some false, some true, some false, some false, some false, some true] ∧
    conditionRow 0x4C = [some true, some false, some true, some true, some true, some false] ∧
    conditionRow 0x4D = [some false, some false, some false, some true, some false, some true] ∧
    conditionRow 0x4E = [some true, some true, some true, some false, some true, some false] := by
  decide

theorem test_emt_prints_the_low_byte :
    after (start 0x50 [(0, 0x12345641)]) (fun t => (t.console, t.pc, t.reg 0)) =
      some ([0x41], 0x104, 0x12345641) := by decide
theorem test_bpt_hlt_nop :
    after (start 0x03 []) (fun t => (t.outcome, t.pc)) = some (.breakpoint, 0x104) ∧
    after (start 0x00 []) (fun t => (t.outcome, t.pc)) = some (.halt, 0x104) ∧
    after (start 0x01 []) (fun t => (t.outcome, t.pc)) = some (.continue, 0x104) := by decide

/-! ## Fetch and memory -/

theorem test_step_unknown_word :
    failing (start 0x0003C225 [(0, 1)]) (fun t => (t.pc, t.reg 15)) =
      some (some 0x0003C225, 0x104, 0x104) := by decide
theorem test_fetch_outside_memory :
    failing ((start 0x01 []).setPc 0x10000) State.pc = some (some 0x10000, 0x10000) := by
  decide
/-- 20_memory.md R46, R52: a misaligned fetch is cut at the word's end and reported. -/
theorem test_fetch_misaligned_is_cut :
    after ((start 0x01020304 []).setPc 0x103) (fun t => (t.pc, t.alignLog)) =
      some (0x107, [(0x103, 4)]) := by decide
/-- The sequence of 95_test_vectors.md 2.1 that crosses the end of a word. -/
theorem test_write_across_a_word_is_cut :
    memWrite .b16 0x203 0xCAFE { State.reset with mem := Memory.setWord [] 0x80 0xBEEFABFF } =
      .ok () { State.reset with
        mem := Memory.setWord [] 0x80 0xFEEFABFF, alignLog := [(0x203, 2)] } := by decide

/-- The host's load puts a word where the first step after reset fetches it; nothing loaded, that step
is a HLT. -/
theorem test_first_step_after_reset :
    after (State.reset.withFetchWord 32 0x0B) State.flags = some (nzvc 1 0 0 0) ∧
    after State.reset State.outcome = some .halt := by decide

/-! ## Witnesses

For each obligation with hypotheses, a state and operands that meet them together, clause by clause.
`edge` has registers at the boundary: R1 at the last word of memory, R2 at the first byte behind it,
R3 at 0, R4 at the last byte. -/

/-- A state whose registers stand at the edges of memory. -/
def edge : State := start 0x00084221 [(1, 0xFFFC), (2, 0x10000), (3, 0), (4, 0xFFFF), (5, 7), (14, 4)]

/-- The hypotheses under which a two-operand instruction completes. -/
abbrev completes (sz : Size) (dst src : Operand) (s : State) : Prop :=
  operandOk sz src s ∧ operandOk sz dst (afterSource sz src s)

/-- The hypotheses under which its source faults, and those under which its destination does. -/
abbrev faultsEither (sz : Size) (src bad : Operand) (s : State) : Prop :=
  ¬ operandOk sz bad s ∧ operandOk sz src s ∧ ¬ operandOk sz bad (afterSource sz src s)

theorem witness_DecodeOfEncodeIsTheInstruction :
    Encoding.spec.wf ∧ flipped.wf ∧
    Instr.wellFormed (.div .b16 ⟨.direct, 14⟩ ⟨.autoInc, 15⟩) = true := by decide

theorem witness_EncodeOfDecodeClearsIgnoredBits :
    (Encoding.spec.wf ∧ specDecode 0xFFC04221 = .ok (.add .b32 ⟨.direct, 1⟩ ⟨.direct, 0⟩)) ∧
    flipped.wf ∧ decode flipped 0xDEFFDF12 = .ok (.add .b32 ⟨.direct, 1⟩ ⟨.direct, 2⟩) :=
  ⟨⟨by decide, rfl⟩, by decide, rfl⟩

theorem witness_ReservedWordsAreUnknown :
    (start 0x51 []).params.encoding = Encoding.spec ∧
    memRead .b32 (start 0x51 []).pc ((start 0x51 []).setOutcome .continue) =
      .ok 0x51 ((start 0x51 []).setOutcome .continue) ∧
    reservedWord 0x51 ∧ reservedWord 0x0C ∧ reservedWord 0x4F ∧ reservedWord 0x00000310 ∧
    reservedWord 0x0003C225 ∧ ¬ reservedWord 0x0003C625 ∧ ¬ reservedWord 0x00000340 := by
  refine ⟨rfl, by decide, ?_, ?_, ?_, ?_, ?_, ?_, ?_⟩ <;> simp [reservedWord]

theorem witness_StepFetchesDecodesAndRuns :
    (edge.setPc 0x10000).params.memSize ≤ (edge.setPc 0x10000).pc.toNat ∧
    (edge.setPc 0xFFFF).pc.toNat < (edge.setPc 0xFFFF).params.memSize ∧
    decode edge.params.encoding (BitVec.ofNat 32 (memValue .b32 edge.pc.toNat edge)) =
      .ok (.add .b32 ⟨.direct, 1⟩ ⟨.direct, 2⟩) ∧
    decode (start 0x51 []).params.encoding
        (BitVec.ofNat 32 (memValue .b32 (start 0x51 []).pc.toNat (start 0x51 []))) =
      .error (.unknownOpcode 0x51) := by
  refine ⟨by decide, by decide, rfl, rfl⟩

theorem witness_StepKeepsStateWellFormed :
    edge.wf ∧ (∃ t, step edge = .next t) ∧ (start 0x51 []).wf ∧
    (∃ f, step (start 0x51 []) = .fault f) := by
  refine ⟨by decide, ⟨_, rfl⟩, by decide, ⟨_, rfl⟩⟩

theorem witness_StreamsOnlyGrow :
    (∃ t, step edge = .next t) ∧
    ∃ t f, step (start 0x51 []) = .fault f ∧ leftBehind f = t :=
  ⟨⟨_, rfl⟩, _, _, rfl, rfl⟩

theorem witness_OutcomesComeFromHltAndBptOnly :
    edge.params.encoding = Encoding.spec ∧ (∃ t, step edge = .next t) ∧ (∃ t, step (start 0x00 []) = .next t ∧ t.outcome = .halt) ∧
    ∃ t, step (start 0x03 []) = .next t ∧ t.outcome = .breakpoint :=
  ⟨rfl, ⟨_, rfl⟩, ⟨_, rfl, rfl⟩, _, rfl, rfl⟩

theorem witness_FlagsAreWrittenOnlyByTheirInstructions :
    (writesFlags (.jmp .b32 ⟨.direct, 1⟩) = false ∧
      ∃ t, exec (.jmp .b32 ⟨.direct, 1⟩) edge = .next t) ∧
    ∃ f, exec (.add .b32 ⟨.direct, 1⟩ ⟨.indirect, 2⟩) edge = .fault f :=
  ⟨⟨rfl, _, rfl⟩, _, rfl⟩

theorem witness_MemoryIsWrittenOnlyByStores :
    (mayStore edge (.cmp .b32 ⟨.indirect, 1⟩ ⟨.direct, 2⟩) = false ∧
      ∃ t, exec (.cmp .b32 ⟨.indirect, 1⟩ ⟨.direct, 2⟩) edge = .next t) ∧
    ∃ f, exec (.mov .b32 ⟨.indirect, 2⟩ ⟨.direct, 1⟩) edge = .fault f :=
  ⟨⟨rfl, _, rfl⟩, _, rfl⟩

theorem witness_MemReadReturnsTheBytesThatFit :
    (0xFFFF : Word).toNat < edge.params.memSize ∧ edge.params.memSize ≤ (0x10000 : Word).toNat := by
  decide

theorem witness_MemWriteStoresTheBytesThatFit :
    (0xFFFF : Word).toNat < edge.params.memSize ∧ edge.params.memSize ≤ (0x10000 : Word).toNat := by
  decide

theorem witness_MixedWidthAccesses :
    (0xFFFC : Word).toNat % 4 = 0 ∧ (0xFFFC : Word).toNat + 3 < edge.params.memSize ∧
    edge.params.memSize ≤ 2 ^ 32 := by decide

theorem witness_RegisterStepBySizeAndRegister :
    (13 : RegId).val < 14 ∧ (edge.reg 4).toNat < edge.params.memSize ∧
    (edge.reg 2 - stepOf .b8 2).toNat < edge.params.memSize := by decide

theorem witness_SourceOperandByMode :
    operandOk .b32 ⟨.direct, 2⟩ edge ∧ operandOk .b32 ⟨.indirect, 4⟩ edge ∧
    operandOk .b16 ⟨.autoInc, 1⟩ edge ∧ operandOk .b8 ⟨.autoDec, 2⟩ edge ∧
    ¬ operandOk .b8 ⟨.indirect, 2⟩ edge ∧ ¬ operandOk .b32 ⟨.autoInc, 2⟩ edge ∧
    ¬ operandOk .b32 ⟨.autoDec, 3⟩ edge := by decide

theorem witness_RegisterStoresSignExtendMemoryStoresDoNot :
    (0xFF : Wide).toNat < sizeModulus .b8 ∧ (0xFFFF : Word).toNat < edge.params.memSize ∧
    ∃ t, exec (.cmp .b16 ⟨.autoInc, 1⟩ ⟨.direct, 5⟩) edge = .next t :=
  ⟨by decide, by decide, _, rfl⟩

theorem witness_MovStoresTheSource :
    completes .b32 ⟨.autoDec, 2⟩ ⟨.autoInc, 1⟩ edge ∧
    faultsEither .b32 ⟨.autoInc, 15⟩ ⟨.indirect, 2⟩ edge := by decide

theorem witness_AddStoresTheSum :
    completes .b8 ⟨.autoInc, 4⟩ ⟨.direct, 5⟩ edge ∧
    faultsEither .b32 ⟨.indirect, 1⟩ ⟨.autoInc, 2⟩ edge := by decide

theorem witness_SubStoresTheDifference :
    completes .b16 ⟨.indirect, 1⟩ ⟨.autoDec, 2⟩ edge ∧
    faultsEither .b16 ⟨.direct, 1⟩ ⟨.autoDec, 3⟩ edge := by decide

theorem witness_CmpSetsFlagsOnly :
    completes .b32 ⟨.direct, 5⟩ ⟨.indirect, 4⟩ edge ∧
    faultsEither .b32 ⟨.direct, 1⟩ ⟨.indirect, 2⟩ edge := by decide

theorem witness_MulStoresTheLowProduct :
    completes .b32 ⟨.direct, 15⟩ ⟨.direct, 5⟩ edge ∧
    faultsEither .b8 ⟨.direct, 1⟩ ⟨.indirect, 2⟩ edge := by decide

/-- The four clauses of DIV: a divisor that is not 0 (R5 = 7), one that is (R3 = 0), a fault, and the
reserved form. -/
theorem witness_DivStoresQuotientAndRemainder :
    (¬ (Mode.direct = .direct ∧ (14 : RegId) = 15) ∧
      completes .b32 ⟨.direct, 14⟩ ⟨.direct, 5⟩ edge ∧ operandValue .b32 ⟨.direct, 5⟩ edge ≠ 0) ∧
    (completes .b32 ⟨.indirect, 15⟩ ⟨.direct, 3⟩ edge ∧ operandValue .b32 ⟨.direct, 3⟩ edge = 0 ∧
      operandValue .b8 ⟨.direct, 2⟩ edge = 0) ∧
    faultsEither .b32 ⟨.direct, 5⟩ ⟨.indirect, 2⟩ edge ∧
    ((⟨.direct, 15⟩ : Operand).mode = .direct ∧ (⟨.direct, 15⟩ : Operand).reg = 15) := by
  decide

theorem witness_AndOrXorStoreTheBitwiseResult :
    completes .b32 ⟨.indirect, 1⟩ ⟨.direct, 5⟩ edge ∧
    faultsEither .b32 ⟨.direct, 5⟩ ⟨.indirect, 2⟩ edge := by decide

theorem witness_LslShiftsLeft :
    completes .b8 ⟨.indirect, 1⟩ ⟨.direct, 5⟩ edge ∧
    faultsEither .b32 ⟨.direct, 5⟩ ⟨.indirect, 2⟩ edge := by decide

theorem witness_LsrShiftsZerosIn :
    completes .b16 ⟨.indirect, 1⟩ ⟨.direct, 5⟩ edge ∧
    faultsEither .b32 ⟨.direct, 5⟩ ⟨.indirect, 2⟩ edge := by decide

theorem witness_AsrShiftsTheSignIn :
    completes .b32 ⟨.autoInc, 1⟩ ⟨.direct, 5⟩ edge ∧
    faultsEither .b32 ⟨.direct, 5⟩ ⟨.indirect, 2⟩ edge := by decide

theorem witness_JmpGoesToTheOperandsValue :
    opcodeOf Encoding.spec 0x000FDE10 = 0x10 ∧ sizeOf? Encoding.spec 0x000FDE10 = .ok .b32 ∧
    operandOk .b32 ⟨.autoInc, 15⟩ edge ∧ ¬ operandOk .b32 ⟨.indirect, 2⟩ edge :=
  ⟨by decide, rfl, by decide, by decide⟩

/-- SP = 4 pushes at address 0, SP = 0 pushes outside memory. -/
theorem witness_JsrPushesPcAndJumps :
    (opcodeOf Encoding.spec 0x00383111 = 0x11 ∧ sizeOf? Encoding.spec 0x00383111 = .ok .b16) ∧
    (operandOk .b32 ⟨.direct, 5⟩ edge ∧
      ((afterSource .b32 ⟨.direct, 5⟩ edge).sp - 4).toNat < edge.params.memSize) ∧
    (operandOk .b32 ⟨.direct, 5⟩ (edge.setSp 0) ∧ (edge.setSp 0).params.memSize ≤
      ((afterSource .b32 ⟨.direct, 5⟩ (edge.setSp 0)).sp - 4).toNat) ∧
    ¬ operandOk .b32 ⟨.indirect, 2⟩ edge :=
  ⟨⟨by decide, rfl⟩, by decide, by decide, by decide⟩

theorem witness_RetPopsPc :
    opcodeOf Encoding.spec 0xFFFFFF02 = 0x02 ∧
    (edge.setSp 0xFFFF).sp.toNat < edge.params.memSize ∧
    edge.params.memSize ≤ (edge.setSp 0x10000).sp.toNat := by decide

theorem witness_RetReturnsBehindJsr :
    ∃ t, exec (.jsr .b32 ⟨.autoInc, 15⟩) edge = .next t ∧ t.sp.toNat % 4 = 0 :=
  ⟨_, rfl, by decide⟩

/-- For each row flags under which its condition holds; BR's always does, and for BGT there are flags
under which it does not. -/
theorem witness_OrderBranchesAddTheDisplacementIffTaken :
    (∀ row ∈ orderBranches, ∃ f : Flags, row.2.2 f) ∧
    ((Instr.bgt, 0x45, fun f : Flags => f.z = false ∧ f.n = f.v) ∈ orderBranches ∧
      ¬ ((nzvc 0 1 0 0).z = false ∧ (nzvc 0 1 0 0).n = (nzvc 0 1 0 0).v)) := by
  refine ⟨?_, by simp [orderBranches], by decide⟩
  intro row h
  simp only [orderBranches, List.mem_cons, List.not_mem_nil, or_false] at h
  rcases h with rfl | rfl | rfl | rfl | rfl | rfl | rfl
  · exact ⟨nzvc 0 0 0 0, trivial⟩
  · exact ⟨nzvc 0 1 0 0, rfl⟩
  · exact ⟨nzvc 0 0 0 0, rfl⟩
  · exact ⟨nzvc 1 0 0 0, by decide⟩
  · exact ⟨nzvc 1 0 1 0, rfl⟩
  · exact ⟨nzvc 0 0 0 0, rfl, rfl⟩
  · exact ⟨nzvc 0 1 0 0, .inl rfl⟩

/-- For each row flags under which its condition holds, and for BLOS flags under which it does not. -/
theorem witness_FlagBranchesAddTheDisplacementIffTaken :
    (∀ row ∈ flagBranches, ∃ f : Flags, row.2.2 f) ∧
    ((Instr.blos, 0x48, fun f : Flags => f.c = true ∨ f.z = true) ∈ flagBranches ∧
      ¬ ((nzvc 1 0 1 0).c = true ∨ (nzvc 1 0 1 0).z = true)) := by
  refine ⟨?_, by simp [flagBranches], by decide⟩
  intro row h
  simp only [flagBranches, List.mem_cons, List.not_mem_nil, or_false] at h
  rcases h with rfl | rfl | rfl | rfl | rfl | rfl | rfl | rfl
  · exact ⟨nzvc 0 0 0 0, rfl, rfl⟩
  · exact ⟨nzvc 0 0 0 1, .inl rfl⟩
  · exact ⟨nzvc 0 0 0 0, rfl⟩
  · exact ⟨nzvc 0 0 0 1, rfl⟩
  · exact ⟨nzvc 1 0 0 0, rfl⟩
  · exact ⟨nzvc 0 0 0 0, rfl⟩
  · exact ⟨nzvc 0 0 1 0, rfl⟩
  · exact ⟨nzvc 0 0 0 0, rfl⟩

theorem witness_FlagInstructionsWriteOneFlag :
    opcodeOf Encoding.spec 0xFFFFFF04 = 0x04 ∧ opcodeOf Encoding.spec 0x0000000B = 0x0B := by decide

theorem witness_BptHltNopChangeOnlyTheOutcome :
    opcodeOf Encoding.spec 0xABCDEF00 = 0x00 ∧ opcodeOf Encoding.spec 0x12345601 = 0x01 ∧ opcodeOf Encoding.spec 0xFFFFFF03 = 0x03 := by decide

theorem witness_EmtPrintsOrCallsTheTrapTable :
    (0 : BitVec 24) = edge.params.emtPutchar ∧ (1 : BitVec 24) ≠ edge.params.emtPutchar := by
  decide

theorem witness_SignedBranchesAfterSubDecideTheOrder :
    ∃ t, exec (.sub .b32 ⟨.direct, 1⟩ ⟨.direct, 2⟩) edge = .next t := ⟨_, rfl⟩

/-- Operands of one sign, and of two signs: at size 16, R1 = 0xFFFC is negative and R5 = 7 is not. -/
theorem witness_SignedBranchesAfterCmp :
    (∃ t, exec (.cmp .b32 ⟨.direct, 1⟩ ⟨.direct, 5⟩) edge = .next t ∧
      negative .b32 (operandValue .b32 ⟨.direct, 1⟩ edge) =
        negative .b32 (operandValue .b32 ⟨.direct, 5⟩ edge)) ∧
    ∃ t, exec (.cmp .b16 ⟨.direct, 1⟩ ⟨.direct, 5⟩) edge = .next t ∧
      negative .b16 (operandValue .b16 ⟨.direct, 1⟩ edge) ≠
        negative .b16 (operandValue .b16 ⟨.direct, 5⟩ edge) :=
  ⟨⟨_, rfl, by decide⟩, _, rfl, by decide⟩

theorem witness_UnsignedBranchesAfterSubAndCmp :
    (∃ t, exec (.sub .b32 ⟨.direct, 1⟩ ⟨.direct, 2⟩) edge = .next t) ∧
    ∃ t, exec (.cmp .b8 ⟨.autoDec, 2⟩ ⟨.direct, 5⟩) edge = .next t := ⟨⟨_, rfl⟩, _, rfl⟩

theorem witness_StoreIsFetchedByTheNextStep :
    ∃ t, memWrite .b32 0x100 0x0B edge = .ok () t ∧ (0x100 : Word).toNat % 4 = 0 ∧
      edge.pc = 0x100 ∧ decode edge.params.encoding 0x0B = .ok .sen :=
  ⟨_, rfl, by decide, by decide, rfl⟩

/-- `add r1, r2` with R1 = 5 and R2 = 7 on a machine whose tables are `flipped`: 0xDE is the complement of
0x21, size code 1, mode codes 3 and 3, dr 1, sr 2. -/
def flippedStart : State :=
  let s := start 0xDE001F12 [(1, 5), (2, 7)]
  { s with params := { s.params with encoding := flipped } }

/-- 00_scope.md R6: a machine decodes by its own tables, and a word of the spec's tables is none of its. -/
theorem test_step_under_other_tables :
    (match step flippedStart with | .next t => t.reg 1 | _ => 0) = 12 ∧
    step { flippedStart with mem := (start 0x00084221 []).mem } =
      .fault (.unknown 0x00084221
        ({ flippedStart with mem := (start 0x00084221 []).mem }.setPc 0x104)) := ⟨rfl, rfl⟩

theorem witness_EveryLegalEncodingRunsItsWords :
    (edge.wf ∧ ∃ s', memRead .b32 edge.pc (edge.setOutcome .continue) =
      .ok (encode edge.params.encoding (.add .b32 ⟨.direct, 1⟩ ⟨.direct, 2⟩)) s') ∧
    (flippedStart.wf ∧ ∃ s', memRead .b32 flippedStart.pc (flippedStart.setOutcome .continue) =
      .ok (encode flippedStart.params.encoding (.add .b32 ⟨.direct, 1⟩ ⟨.direct, 2⟩)) s') ∧
    Instr.wellFormed (.add .b32 ⟨.direct, 1⟩ ⟨.direct, 2⟩) = true :=
  ⟨⟨by decide, _, rfl⟩, ⟨by decide, _, rfl⟩, rfl⟩

/-- The run of 95_test_vectors.md's defaults: SEN at 0x100, then the HLT that memory of zeros holds. -/
theorem witness_RunEndDoesNotDependOnTheBudget :
    ∃ t, runUntilStop 2 (start 0x0B []) = some (.halt, t) := ⟨_, rfl⟩

theorem witness_BreakpointHitIsTransparent :
    edge.wf ∧ edge.pc = 0x100 ∧ (0x100 : Word).toNat % 4 = 0 ∧
    (0x100 : Word).toNat < edge.params.memSize := by decide

end Sys2Proof.Tests.Slice0
end

section
/-! PROOFS. Memory accesses as numbers and bytes (20_memory.md R44, R45, R48): the number that the
bytes of a word make and its digits, then MemRead and MemWrite in that view, then the obligations of
the family. -/

namespace Sys2Proof.Machine

/-! ## Numbers made of bytes -/

theorem sizeModulus_eq_pow (sz : Size) : sizeModulus sz = 256 ^ sizeBytes sz := by
  rw [sizeModulus, sizeBits, pow_mul, show 2 ^ 8 = 256 from rfl]

theorem readBytes_lt (s : State) (k a : Nat) : readBytes s k a < 256 ^ k := by
  induction k generalizing a with
  | zero => simp [readBytes]
  | succ k ih =>
    have hbyte := (s.byte a).isLt
    have hrest := ih (a + 1)
    rw [readBytes, pow_succ]
    omega

theorem readBytes_congr {s t : State} {k a : Nat} (h : ∀ i < k, t.byte (a + i) = s.byte (a + i)) :
    readBytes t k a = readBytes s k a := by
  induction k generalizing a with
  | zero => rfl
  | succ k ih =>
    have hrest : readBytes t k (a + 1) = readBytes s k (a + 1) := ih fun i hi => by
      rw [Nat.add_right_comm]; exact h (i + 1) (Nat.succ_lt_succ hi)
    rw [readBytes, readBytes, hrest, ← Nat.add_zero a, h 0 k.succ_pos]

/-- The bytes of an interval split anywhere: the lower part is the low digits of the number. -/
theorem readBytes_add (s : State) (j k a : Nat) :
    readBytes s (j + k) a = readBytes s j a + 256 ^ j * readBytes s k (a + j) := by
  induction j generalizing a with
  | zero => simp [readBytes]
  | succ j ih =>
    rw [Nat.add_right_comm j 1 k, readBytes, readBytes, ih, pow_succ, Nat.add_right_comm a 1 j,
      ← Nat.add_assoc a j 1]
    ring

theorem readBytes_mod (s : State) (n k a : Nat) :
    readBytes s k a % 256 ^ n = readBytes s (min n k) a := by
  rcases Nat.le_total k n with h | h
  · rw [Nat.min_eq_right h]
    exact Nat.mod_eq_of_lt ((readBytes_lt s k a).trans_le (Nat.pow_le_pow_right (by decide) h))
  · obtain ⟨d, rfl⟩ := Nat.exists_eq_add_of_le h
    rw [Nat.min_eq_left h, readBytes_add, Nat.add_mul_mod_self_left,
      Nat.mod_eq_of_lt (readBytes_lt s n a)]

theorem readBytes_div (s : State) (j k a : Nat) :
    readBytes s (j + k) a / 256 ^ j = readBytes s k (a + j) := by
  rw [readBytes_add, Nat.add_mul_div_left _ _ (Nat.pow_pos (by decide)),
    Nat.div_eq_of_lt (readBytes_lt s j a), Nat.zero_add]

/-- Bytes that are the digits of v, lowest first, make v, cut to their number. -/
theorem readBytes_of_digits {s : State} {k a v : Nat}
    (h : ∀ j < k, s.byte (a + j) = BitVec.ofNat 8 (v / 256 ^ j)) :
    readBytes s k a = v % 256 ^ k := by
  induction k generalizing a v with
  | zero => simp [readBytes, Nat.mod_one]
  | succ k ih =>
    have hlow : s.byte a = BitVec.ofNat 8 v := by simpa using h 0 k.succ_pos
    have hrest : readBytes s k (a + 1) = v / 256 % 256 ^ k := by
      refine ih fun j hj => ?_
      rw [Nat.add_assoc, Nat.add_comm 1 j, h (j + 1) (Nat.succ_lt_succ hj), pow_succ',
        Nat.div_div_eq_div_mul]
    rw [readBytes, hlow, hrest, pow_succ', Nat.mod_mul, BitVec.toNat_ofNat]

/-- The word view and the byte view of memory agree (20_memory.md R41). -/
theorem word_toNat_eq_readBytes (s : State) (i : Nat) :
    (s.mem.word i).toNat = readBytes s 4 (4 * i) := by
  simp only [Memory.word_toNat, readBytes, State.byte]
  ring

/-- The value of an access, cut at the end of its word, is the masked extract from the number of
that word (20_memory.md R44). -/
theorem memValue_eq_word_digits (sz : Size) (s : State) {a k : Nat} (ha : a % 4 = 0) (hk : k < 4) :
    memValue sz (a + k) s = readBytes s 4 a / 256 ^ k % 256 ^ sizeBytes sz := by
  have hoff : (a + k) % 4 = k := by omega
  have hsplit : readBytes s 4 a / 256 ^ k = readBytes s (4 - k) (a + k) := by
    rw [← readBytes_div, Nat.add_sub_cancel' hk.le]
  rw [hsplit, readBytes_mod, memValue, bytesInWord, hoff]

theorem bytesInWord_of_aligned (sz : Size) {a : Nat} (ha : a % 4 = 0) :
    bytesInWord sz a = sizeBytes sz := by
  rw [bytesInWord, ha]; cases sz <;> rfl

theorem bytesInWord_b8 (a : Nat) : bytesInWord .b8 a = 1 := by
  rw [bytesInWord, sizeBytes]; omega

/-! ## MemRead -/

/-- The masked extract of MemRead is the value of the access. -/
theorem extract_toNat (sz : Size) (a : Nat) (s : State) :
    ((s.mem.word (a / 4) >>> (8 * (a % 4))) &&& wordMask sz).toNat = memValue sz a s := by
  have hvalue := memValue_eq_word_digits sz s (Nat.mul_mod_right 4 (a / 4))
    (Nat.mod_lt a (by decide))
  rw [Nat.div_add_mod] at hvalue
  rw [hvalue, and_wordMask_toNat, BitVec.toNat_ushiftRight, word_toNat_eq_readBytes,
    Nat.shiftRight_eq_div_pow, pow_mul, sizeModulus_eq_pow, show 2 ^ 8 = 256 from rfl]

/-- A read inside memory: the bytes that fit, and the alignment report. -/
theorem memRead_eq_memValue {sz : Size} {a : Word} {s : State} (h : a.toNat < s.params.memSize) :
    memRead sz a s = .ok (BitVec.ofNat 32 (memValue sz a.toNat s))
      { s with alignLog := s.alignLog ++ accessEntry sz a } := by
  rw [memRead_of_lt h, logAccess_eq, ← extract_toNat, BitVec.ofNat_toNat, BitVec.setWidth_eq]

/-- A read in a word whose number is known gives that number's digits from the byte offset on. -/
theorem memRead_in_word {sz : Size} {a k n : Nat} {b : Word} {s : State}
    (ha : a % 4 = 0) (hk : k < 4) (hb : b.toNat = a + k) (hin : a + k < s.params.memSize)
    (hn : readBytes s 4 a = n) :
    ∃ u, memRead sz b s = .ok (BitVec.ofNat 32 (n / 256 ^ k % 256 ^ sizeBytes sz)) u := by
  rw [memRead_eq_memValue (hb ▸ hin), hb, memValue_eq_word_digits sz s ha hk, hn]
  exact ⟨_, rfl⟩

/-! ## MemWrite -/

/-- The bytes of memory after the masked read-modify-write of MemWrite. -/
theorem get_setWord_mergeWord (sz : Size) (a : Nat) (v : Word) (s : State) (b : Nat) :
    (s.mem.setWord (a / 4) (mergeWord sz (a % 4) v (s.mem.word (a / 4)))).get b =
      byteAfterStore sz a v.toNat s b := by
  have hb := Nat.mod_lt b (y := 4) (by decide)
  rw [Memory.get_setWord, byteAfterStore]
  by_cases hw : b / 4 = a / 4
  · have hoff : b % 4 - a % 4 = b - a := by omega
    have hin : (a % 4 ≤ b % 4 ∧ b % 4 < a % 4 + min (sizeBytes sz) (4 - a % 4)) ↔
        storedAt sz a b := by
      rw [storedAt, bytesInWord]; omega
    rw [if_pos hw, mergeWord_byte sz _ (Nat.mod_lt a (by decide)) v _ _ hb, hoff,
      Memory.extractLsb'_word _ _ _ hb, ← hw, Nat.div_add_mod, ← State.byte]
    simp only [hin]
  · have hout : ¬ storedAt sz a b := by rw [storedAt, bytesInWord]; omega
    rw [if_neg hw, if_neg hout, State.byte]

/-- A write inside memory: the bytes that fit, and the alignment report. -/
theorem memWrite_eq_byteAfterStore {sz : Size} {a v : Word} {s : State}
    (h : a.toNat < s.params.memSize) :
    ∃ m, memWrite sz a v s =
        .ok () { s with mem := m, alignLog := s.alignLog ++ accessEntry sz a } ∧
      ∀ b, Memory.get m b = byteAfterStore sz a.toNat v.toNat s b := by
  refine ⟨_, ?_, get_setWord_mergeWord sz a.toNat v s⟩
  rw [memWrite_of_lt h, logAccess_eq]

theorem memWrite_bytes {sz : Size} {a v : Word} {s : State} (h : a.toNat < s.params.memSize) :
    ∃ t, memWrite sz a v s = .ok () t ∧ t.params = s.params ∧
      ∀ b, t.byte b = byteAfterStore sz a.toNat v.toNat s b := by
  obtain ⟨m, hwrite, hm⟩ := memWrite_eq_byteAfterStore (sz := sz) (v := v) h
  exact ⟨_, hwrite, rfl, hm⟩

/-- A read of what a store of the same size just left gives the value back, cut to the bytes that
fit. -/
theorem memValue_of_byteAfterStore {sz : Size} {ea v : Nat} {s t : State}
    (h : ∀ b, t.byte b = byteAfterStore sz ea v s b) :
    memValue sz ea t = v % 256 ^ bytesInWord sz ea := by
  refine readBytes_of_digits fun j hj => ?_
  rw [h, byteAfterStore, if_pos ⟨Nat.le_add_right ea j, Nat.add_lt_add_left hj ea⟩,
    Nat.add_sub_cancel_left]

/-- The four bytes of a word that a 32-bit store replaced make the stored value. -/
theorem readBytes_of_word_stored {a v : Nat} {s t : State} (ha : a % 4 = 0) (hv : v < 256 ^ 4)
    (h : ∀ b, t.byte b = byteAfterStore .b32 a v s b) : readBytes t 4 a = v := by
  have hfit : bytesInWord .b32 a = 4 := bytesInWord_of_aligned .b32 ha
  have hvalue := memValue_of_byteAfterStore h
  rwa [memValue, hfit, Nat.mod_eq_of_lt hv] at hvalue

/-- A store into an interval of bytes splices the low digits of its value into the number they make,
between the bytes below and above the ones that fit. -/
theorem readBytes_of_byteAfterStore {sz : Size} {a j w v : Nat} {s t : State} (r : Nat)
    (h : ∀ b, t.byte b = byteAfterStore sz (a + j) v s b) (hw : bytesInWord sz (a + j) = w) :
    readBytes t (j + (w + r)) a =
      readBytes s j a + 256 ^ j * (v % 256 ^ w + 256 ^ w * readBytes s r (a + j + w)) := by
  have hbelow : readBytes t j a = readBytes s j a := readBytes_congr fun i hi => by
    rw [h, byteAfterStore, if_neg (by omega)]
  have hstored : readBytes t w (a + j) = v % 256 ^ w := hw ▸ memValue_of_byteAfterStore h
  have habove : readBytes t r (a + j + w) = readBytes s r (a + j + w) :=
    readBytes_congr fun i _ => by rw [h, byteAfterStore, if_neg (by omega)]
  rw [readBytes_add, readBytes_add, hbelow, hstored, habove]

/-! ## The obligations -/

/-- Settles O12, by the two cases of MemRead. -/
theorem memReadReturnsTheBytesThatFit : Obligations.MemReadReturnsTheBytesThatFit :=
  fun _ _ _ => ⟨memRead_eq_memValue, memRead_of_ge⟩

/-- Settles O13, by the two cases of MemWrite. -/
theorem memWriteStoresTheBytesThatFit : Obligations.MemWriteStoresTheBytesThatFit :=
  fun _ _ _ _ => ⟨memWrite_eq_byteAfterStore, memWrite_of_ge⟩

/-- Settles O14: both stores are followed in the number that the word's four bytes make. -/
theorem mixedWidthAccesses : Obligations.MixedWidthAccesses := by
  intro a s ha hin hmem
  have hoffset : ∀ k < 4, (a + BitVec.ofNat 32 k).toNat = a.toNat + k := fun k hk => by
    rw [BitVec.toNat_add, BitVec.toNat_ofNat]; omega
  have hone : (a + 1).toNat = a.toNat + 1 := hoffset 1 (by decide)
  have htwo : (a + 2).toNat = a.toNat + 2 := hoffset 2 (by decide)
  have hthree : (a + 3).toNat = a.toNat + 3 := hoffset 3 (by decide)
  obtain ⟨t, hwrite, hparams, hbyte⟩ :=
    memWrite_bytes (sz := .b32) (a := a) (v := 0x11223344) (s := s) (by omega)
  have hword : readBytes t 4 a.toNat = 0x11223344 :=
    readBytes_of_word_stored ha (by decide) hbyte
  have hread (sz : Size) (k : Nat) (b : Word) (hk : k < 4) (hb : b.toNat = a.toNat + k) :
      ∃ u, memRead sz b t = .ok (BitVec.ofNat 32 (0x11223344 / 256 ^ k % 256 ^ sizeBytes sz)) u :=
    memRead_in_word ha hk hb (by rw [hparams]; omega) hword
  obtain ⟨t', hwrite', hparams', hbyte'⟩ :=
    memWrite_bytes (sz := .b8) (a := a + 1) (v := 0xAB) (s := t) (by rw [hone, hparams]; omega)
  rw [hone] at hbyte'
  have hword' : readBytes t' 4 a.toNat = 0x1122AB44 := by
    have hlow : readBytes t 1 a.toNat = 0x44 :=
      (readBytes_mod t 1 4 a.toNat).symm.trans (by rw [hword]; rfl)
    have hhigh : readBytes t 2 (a.toNat + 1 + 1) = 0x1122 := by
      rw [Nat.add_assoc, ← readBytes_div, hword]; rfl
    rw [readBytes_of_byteAfterStore (j := 1) 2 hbyte' (bytesInWord_b8 _), hlow, hhigh]; rfl
  exact ⟨t, hwrite,
    hread .b8 0 a (by decide) rfl, hread .b8 1 _ (by decide) hone,
    hread .b8 2 _ (by decide) htwo, hread .b8 3 _ (by decide) hthree,
    hread .b16 0 a (by decide) rfl, hread .b16 2 _ (by decide) htwo,
    hread .b16 1 _ (by decide) hone, hread .b16 3 _ (by decide) hthree,
    hread .b32 1 _ (by decide) hone,
    t', hwrite',
    memRead_in_word (k := 0) ha (by decide) rfl (by rw [hparams', hparams]; omega) hword'⟩

end Sys2Proof.Machine
end

section
/-! PROOFS. Which words the decoder refuses (30_encoding.md R74, R75, R88): the refusals of each class
of instruction under any tables, the spec's opcode map and fields as numbers, then the obligation of
the family. -/

namespace Sys2Proof

/-! ## What the decoder refuses -/

/-- The one- and two-operand classes, whose words have a size field (30_encoding.md R65). -/
def Mnemonic.hasOperands : Mnemonic → Bool
  | .jmp | .jsr => true
  | .mov | .add | .sub | .cmp | .mul | .div | .and | .or | .xor | .lsl | .lsr | .asr => true
  | _ => false

theorem sizeOf?_refuses {e : Encoding} {w : Word} :
    (∃ err, sizeOf? e w = .error err) ↔ sizeOfCode e (w.extractLsb' e.szLo 2) = none := by
  unfold sizeOf?
  cases sizeOfCode e (w.extractLsb' e.szLo 2) <;> simp

theorem decodeOne_refuses {e : Encoding} {mk : Size → Operand → Instr} {w : Word} :
    (∃ err, decodeOne e mk w = .error err) ↔ ∃ err, sizeOf? e w = .error err := by
  unfold decodeOne
  cases sizeOf? e w <;> simp

theorem decodeTwo_refuses {e : Encoding} {mk : Size → Operand → Operand → Instr} {w : Word} :
    (∃ err, decodeTwo e mk w = .error err) ↔ ∃ err, sizeOf? e w = .error err := by
  unfold decodeTwo
  cases sizeOf? e w <;> simp

theorem decodeDiv_refuses {e : Encoding} {w : Word} :
    (∃ err, decodeDiv e w = .error err) ↔
      (∃ err, sizeOf? e w = .error err) ∨ (dstOf e w).mode = .direct ∧ (dstOf e w).reg = 15 := by
  unfold decodeDiv
  cases sizeOf? e w with
  | error err => simp
  | ok sz => by_cases hdst : (dstOf e w).mode = .direct ∧ (dstOf e w).reg = 15 <;> simp [hdst]

/-- A word of a mnemonic's class is refused for its size, where the class has one, or as the reserved
DIV. -/
theorem decodeAs_refuses {e : Encoding} {w : Word} {m : Mnemonic} :
    (∃ err, decodeAs e w m = .error err) ↔
      (m.hasOperands = true ∧ sizeOfCode e (w.extractLsb' e.szLo 2) = none) ∨
      (m = .div ∧ (dstOf e w).mode = .direct ∧ (dstOf e w).reg = 15) := by
  cases m <;>
    simp [decodeAs, Mnemonic.hasOperands, decodeOne_refuses, decodeTwo_refuses, decodeDiv_refuses,
      sizeOf?_refuses]

/-- All that the decoder refuses, under any tables. -/
theorem decode_refuses {e : Encoding} {w : Word} :
    (∃ err, decode e w = .error err) ↔
      e.opcodes.lookup (opcodeOf e w) = none ∨
      ((∃ m, e.opcodes.lookup (opcodeOf e w) = some m ∧ m.hasOperands = true) ∧
        sizeOfCode e (w.extractLsb' e.szLo 2) = none) ∨
      (e.opcodes.lookup (opcodeOf e w) = some .div ∧
        (dstOf e w).mode = .direct ∧ (dstOf e w).reg = 15) := by
  unfold decode
  cases e.opcodes.lookup (opcodeOf e w) with
  | none => simp
  | some m => simp [decodeAs_refuses]

/-! ## The spec's tables as numbers -/

/-- The opcode bytes that the spec's map leaves out (30_encoding.md R66, R74). -/
theorem lookup_spec_eq_none {op : Byte} : Encoding.spec.opcodes.lookup op = none ↔
    (0x0C ≤ op.toNat ∧ op.toNat ≤ 0x0F) ∨ (0x12 ≤ op.toNat ∧ op.toNat ≤ 0x1F) ∨
      (0x2C ≤ op.toNat ∧ op.toNat ≤ 0x3F) ∨ op.toNat = 0x4F ∨ 0x51 ≤ op.toNat := by
  have hop := op.isLt
  simp only [Encoding.spec, opcodeMap, BitVec.ofNat_eq_ofNat, List.lookup_eq_none_iff, List.mem_cons,
    List.not_mem_nil, or_false, bne_iff_ne, ne_eq, ← BitVec.toNat_inj, forall_eq_or_imp,
    BitVec.toNat_ofNat, Nat.reducePow, Nat.zero_mod, Nat.one_mod, Nat.reduceMod, forall_eq]
  omega

/-- The opcode bytes of the operand classes in the spec's map (30_encoding.md R65, R66). -/
theorem lookup_spec_hasOperands {op : Byte} :
    (∃ m, Encoding.spec.opcodes.lookup op = some m ∧ m.hasOperands = true) ↔
      0x10 ≤ op.toNat ∧ op.toNat ≤ 0x11 ∨ 0x20 ≤ op.toNat ∧ op.toNat ≤ 0x2B := by
  have hrow (m : Mnemonic) : Encoding.spec.opcodes.lookup op = some m ↔ (op, m) ∈ opcodeMap :=
    ⟨mem_of_lookup, lookup_of_mem Encoding.spec_wf.1⟩
  simp only [hrow, opcodeMap, BitVec.ofNat_eq_ofNat, List.mem_cons, Prod.mk.injEq,
    ← BitVec.toNat_inj, BitVec.toNat_ofNat, Nat.reducePow, Nat.zero_mod, Nat.one_mod, Nat.reduceMod,
    List.not_mem_nil, or_false, Mnemonic.hasOperands, or_and_right, and_assoc, exists_or,
    ↓existsAndEq, Bool.false_eq_true, and_false, and_self, and_true, or_self, false_or]
  omega

theorem lookup_spec_eq_div {op : Byte} :
    Encoding.spec.opcodes.lookup op = some .div ↔ op.toNat = 0x25 := by
  rw [lookup_eq_some Encoding.spec_wf, ← BitVec.toNat_inj, eq_comm]; rfl

/-- A field of a word is a digit of its number. -/
theorem field_toNat (w : Word) (lo n : Nat) :
    (w.extractLsb' lo n).toNat = w.toNat / 2 ^ lo % 2 ^ n := by
  rw [BitVec.extractLsb'_toNat, Nat.shiftRight_eq_div_pow]

theorem opcodeOf_spec_toNat (w : Word) : (opcodeOf Encoding.spec w).toNat = w.toNat % 256 := by
  rw [opcodeOf, field_toNat, show 2 ^ Encoding.spec.opLo = 1 from rfl, Nat.div_one]; rfl

/-- The reserved size code of the spec (30_encoding.md R67, R75). -/
theorem size_spec_reserved {w : Word} :
    sizeOfCode Encoding.spec (w.extractLsb' Encoding.spec.szLo 2) = none ↔
      w.toNat / 2 ^ 8 % 4 = 3 := by
  have hcode : ∀ c, sizeOfCode Encoding.spec c = none ↔ c.toNat = 3 := by decide
  rw [hcode, field_toNat]; rfl

theorem dstOf_spec_mode_direct {w : Word} :
    (dstOf Encoding.spec w).mode = .direct ↔ w.toNat / 2 ^ 10 % 4 = 0 := by
  rw [dstOf, modeOfCode_eq Encoding.spec_wf, ← BitVec.toNat_inj, field_toNat, eq_comm]; rfl

theorem dstOf_spec_reg {w : Word} :
    (dstOf Encoding.spec w).reg = 15 ↔ w.toNat / 2 ^ 14 % 16 = 15 := by
  rw [dstOf, ← Fin.val_inj, BitVec.val_toFin, field_toNat]; rfl

/-- Under the spec's tables the decoder refuses exactly the reserved words (30_encoding.md R74, R75,
R88). -/
theorem decode_spec_refuses {w : Word} :
    (∃ err, decode Encoding.spec w = .error err) ↔ Machine.reservedWord w := by
  rw [decode_refuses, lookup_spec_eq_none, lookup_spec_hasOperands, lookup_spec_eq_div,
    size_spec_reserved, dstOf_spec_mode_direct, dstOf_spec_reg, opcodeOf_spec_toNat,
    Machine.reservedWord]
  simp only [or_assoc]

end Sys2Proof

namespace Sys2Proof.Machine

/-! ## The step on a refused word -/

/-- A step whose fetch reads a word dispatches it with pc advanced by 4. -/
theorem step_of_memRead {s s' : State} {w : Word}
    (h : memRead .b32 s.pc (s.setOutcome .continue) = .ok w s') :
    step s = dispatch w (((s.setOutcome .continue).logAccess .b32 s.pc).setPc (s.pc + 4)) := by
  obtain ⟨hin, rfl, -⟩ := memRead_eq_ok.mp h
  exact step_of_lt hin

/-- Settles O5: the decoder's refusals as numbers, and the step's dispatch of a word refused. -/
theorem reservedWordsAreUnknown : Obligations.ReservedWordsAreUnknown := by
  intro w
  refine ⟨decode_spec_refuses, fun s s' hspec hread hreserved => ?_⟩
  obtain ⟨err, hrefused⟩ := decode_spec_refuses.mpr hreserved
  rw [step_of_memRead hread]
  exact dispatch_of_error (by simpa [hspec] using hrefused)

end Sys2Proof.Machine
end

section
/-! PROOFS. Operands (40_step_and_operands.md R100, R103, R104, R107): the step of a register, the
registers behind both operands, the source operand as a number and a state, the result stored, the
fetched word, then the obligations of the family. -/

namespace Sys2Proof.Machine

/-! ## The register step -/

theorem stepOf_of_special {r : RegId} (sz : Size) (h : r = 14 ∨ r = 15) : stepOf sz r = 4 :=
  if_pos h

theorem stepOf_of_lt {r : RegId} (sz : Size) (h : r.val < 14) :
    stepOf sz r = BitVec.ofNat 32 (sizeBytes sz) :=
  if_neg (by rintro (rfl | rfl) <;> simp at h)

theorem stepUp_reg_eq_add (sz : Size) (r r' : RegId) (s : State) :
    (stepUp sz r s).reg r' = s.reg r' + if r' = r then stepOf sz r else 0 := by
  rw [stepUp_reg]
  split
  · next h => rw [h]
  · next => exact (BitVec.add_zero _).symm

theorem stepDown_reg_eq_sub (sz : Size) (r r' : RegId) (s : State) :
    (stepDown sz r s).reg r' = s.reg r' - if r' = r then stepOf sz r else 0 := by
  rw [stepDown_reg]
  split
  · next h => rw [h]
  · next => exact (BitVec.sub_zero _).symm

/-! ## The registers behind both operands -/

theorem destFinish_reg (sz : Size) (o : Operand) (s : State) (r : RegId) :
    (destFinish sz o s).reg r =
      s.reg r + if o.mode = .autoInc then sideEffect sz o r else 0 := by
  rw [destFinish_eq]
  split
  · next h => simp [stepUp_reg_eq_add, sideEffect, h]
  · next => exact (BitVec.add_zero _).symm

/-- A destination's side effect happens before the access or after it, never both. -/
theorem sideEffect_before_add_after (sz : Size) (o : Operand) (r : RegId) :
    (if o.mode = .autoDec then sideEffect sz o r else 0) +
      (if o.mode = .autoInc then sideEffect sz o r else 0) = sideEffect sz o r := by
  obtain ⟨m, q⟩ := o
  cases m <;> simp [sideEffect]

/-- Where what lies between locating and finishing the destination leaves a register alone, it ends
stepped by both operands. -/
theorem destFinish_reg_resolved {sz : Size} {dst src : Operand} {s u : State} {r : RegId}
    (h : u.reg r = (beforeAccess sz dst (afterSource sz src s)).reg r) :
    (destFinish sz dst u).reg r = resolvedReg sz dst src s r := by
  rw [destFinish_reg, h, beforeAccess_reg_eq, BitVec.add_assoc, sideEffect_before_add_after,
    afterSource_reg, resolvedReg]

/-! ## The numbers of the operands -/

theorem memValue_lt (sz : Size) (a : Nat) (s : State) : memValue sz a s < sizeModulus sz := by
  rw [sizeModulus_eq_pow]
  exact (readBytes_lt s _ a).trans_le (Nat.pow_le_pow_right (by decide) (Nat.min_le_left _ _))

theorem operandValue_lt (sz : Size) (o : Operand) (s : State) :
    operandValue sz o s < sizeModulus sz := by
  unfold operandValue
  split
  · exact Nat.mod_lt _ (sizeModulus_pos sz)
  · exact memValue_lt sz _ s

theorem operandValue_toNat (sz : Size) (o : Operand) (s : State) :
    (BitVec.ofNat 64 (operandValue sz o s)).toNat = operandValue sz o s := by
  have hlt := (operandValue_lt sz o s).trans_le (sizeModulus_le sz)
  rw [BitVec.toNat_ofNat, Nat.mod_eq_of_lt (hlt.trans (by decide))]

/-- The value of a register operand: its low S bits. -/
theorem masked_setWidth (sz : Size) (w : Word) :
    masked sz (w.setWidth 64) = BitVec.ofNat 64 (w.toNat % sizeModulus sz) := by
  have hw : w.toNat < 2 ^ 64 := w.isLt.trans (by decide)
  apply BitVec.eq_of_toNat_eq
  rw [masked_toNat, BitVec.toNat_setWidth, BitVec.toNat_ofNat, Nat.mod_eq_of_lt hw,
    Nat.mod_eq_of_lt ((Nat.mod_le _ _).trans_lt hw)]

/-- A memory operand inside memory: the bytes that fit, zero-extended, and the alignment report. -/
theorem readOperand_of_lt {sz : Size} {a : Word} {s : State} (h : a.toNat < s.params.memSize) :
    readOperand sz a s = .ok (BitVec.ofNat 64 (memValue sz a.toNat s))
      { s with alignLog := s.alignLog ++ accessEntry sz a } := by
  have hfits : memValue sz a.toNat s < 2 ^ 32 := (memValue_lt sz _ s).trans_le (sizeModulus_le sz)
  rw [readOperand, memRead_eq_memValue h, Res.bind_ok,
    BitVec.setWidth_ofNat_of_le_of_lt (by decide) hfits]

/-! ## The source operand -/

theorem Res.bind_ok_self {α : Type} (r : Res α) : r.bind .ok = r := by cases r <;> rfl

/-- A source operand in memory: its read between the two halves of the side effect, as a
destination's (40_step_and_operands.md R104, R105, R109). -/
theorem srcValue_memory {sz : Size} {o : Operand} {s : State} (h : o.mode ≠ .direct) :
    srcValue sz o s = (readOperand sz (operandAddr sz o s) (beforeAccess sz o s)).bind
      fun b t => .ok b (destFinish sz o t) := by
  obtain ⟨m, r⟩ := o
  cases m with
  | direct => exact absurd rfl h
  | indirect => exact (Res.bind_ok_self _).symm
  | autoInc => rfl
  | autoDec => rw [← beforeAccess_reg]; exact (Res.bind_ok_self _).symm

/-- The two halves of the side effect, with the report of the access between them. -/
theorem destFinish_beforeAccess_report (sz : Size) (o : Operand) (s : State) :
    destFinish sz o { beforeAccess sz o s with alignLog := s.alignLog ++ operandEntry sz o s } =
      afterSource sz o s := by
  apply State.ext_reg
  case h1 =>
    intro r
    rw [destFinish_reg, State.withAlignLog_reg, beforeAccess_reg_eq, BitVec.add_assoc,
      sideEffect_before_add_after, afterSource_reg]
  all_goals simp

theorem afterSource_direct {sz : Size} {o : Operand} {s : State} (h : o.mode = .direct) :
    afterSource sz o s = s := by
  simp [afterSource, sideEffect, operandEntry, h]

/-- A source operand that can be accessed: its value, and all that resolving it does. -/
theorem srcValue_of_ok {sz : Size} {o : Operand} {s : State} (h : operandOk sz o s) :
    srcValue sz o s = .ok (BitVec.ofNat 64 (operandValue sz o s)) (afterSource sz o s) := by
  by_cases hm : o.mode = .direct
  · simp [srcValue, hm, masked_setWidth, operandValue, afterSource_direct]
  · have hin : (operandAddr sz o s).toNat < (beforeAccess sz o s).params.memSize := by
      rw [beforeAccess_params]; exact h hm
    have hreport : operandEntry sz o s = accessEntry sz (operandAddr sz o s) := if_neg hm
    have hvalue : operandValue sz o s =
        memValue sz (operandAddr sz o s).toNat (beforeAccess sz o s) :=
      (if_neg hm).trans (memValue_congr (beforeAccess_mem sz o s).symm)
    rw [srcValue_memory hm, readOperand_of_lt hin, Res.bind_ok, beforeAccess_alignLog, ← hreport,
      ← hvalue, destFinish_beforeAccess_report]

/-- A source operand that ended well was accessible and left the state that `afterSource` says. -/
theorem srcValue_ok_state {sz : Size} {o : Operand} {b : Wide} {s t : State}
    (h : srcValue sz o s = .ok b t) : t = afterSource sz o s := by
  have hok : operandOk sz o s := by
    by_contra hbad
    rw [srcValue_eq_stop.mpr ⟨hbad, rfl⟩] at h
    cases h
  rw [srcValue_of_ok hok, Res.ok.injEq] at h
  exact h.2.symm

/-! ## The result stored -/

/-- A result in memory is stored as the number it is. -/
theorem setWidth_toNat_of_lt {sz : Size} {r : Wide} (h : r.toNat < sizeModulus sz) :
    (r.setWidth 32).toNat = r.toNat := by
  rw [BitVec.toNat_setWidth, Nat.mod_eq_of_lt (h.trans_le (sizeModulus_le sz))]

/-- A result stored to a register. -/
theorem destWrite_reg {sz : Size} {r : Wide} (d : RegId) (s : State)
    (h : r.toNat < sizeModulus sz) :
    destWrite sz (.reg d) r s = .ok () (s.setReg d (sextNat sz r.toNat)) := by
  rw [destWrite, sextSize_eq (Nat.mod_eq_of_lt h)]

/-- A result stored to memory. -/
theorem destWrite_mem {sz : Size} {r : Wide} {ea : Word} {s : State}
    (h : r.toNat < sizeModulus sz) (hin : ea.toNat < s.params.memSize) :
    ∃ m, destWrite sz (.mem ea) r s =
        .ok () { s with mem := m, alignLog := s.alignLog ++ accessEntry sz ea } ∧
      ∀ a, Memory.get m a = byteAfterStore sz ea.toNat r.toNat s a := by
  rw [← setWidth_toNat_of_lt h]
  exact memWrite_eq_byteAfterStore hin

/-- A compare that ends well has stored nothing: the registers are those that the operands step. -/
theorem aluCompare_storesNothing {f : Size → Wide → Wide → Wide} {kind : FlagKind} {sz : Size}
    {dst src : Operand} {s t : State} (h : aluCompare f kind sz dst src s = .ok () t) :
    StoresNothing sz dst src s t := by
  obtain ⟨b, s1, a, s2, hsrc, hread, rfl⟩ := aluCompare_eq_ok.mp h
  obtain rfl := srcValue_ok_state hsrc
  rw [destLocate_eq] at hread
  obtain ⟨hmem, -, hconsole, hparams, houtcome, hregs, -⟩ := destRead_eq_ok hread
  exact
    { regs := fun r => by rw [State.setFlags_reg, destFinish_reg_resolved (hregs r)]
      bytes := fun a => by simp [State.byte_eq, hmem]
      console := by simp [hconsole]
      params := by simp [hparams]
      outcome := by simp [houtcome] }

/-! ## The fetched word -/

/-- The step on a word fetched inside memory, the word as the number of the bytes that fit. -/
theorem step_eq_dispatch_memValue {s : State} (h : s.pc.toNat < s.params.memSize) :
    step s = dispatch (BitVec.ofNat 32 (memValue .b32 s.pc.toNat s))
      (((s.setOutcome .continue).logAccess .b32 s.pc).setPc (s.pc + 4)) := by
  rw [step_of_lt h, ← extract_toNat, BitVec.ofNat_toNat, BitVec.setWidth_eq]

/-! ## The obligations -/

/-- Settles O16, by the two ends of the source operand. -/
theorem sourceOperandByMode : Obligations.SourceOperandByMode := by
  intro sz o s
  refine ⟨fun hok => ⟨_, srcValue_of_ok hok, operandValue_toNat sz o s, ?_⟩,
    fun hbad => srcValue_eq_stop.mpr ⟨hbad, rfl⟩⟩
  rw [operandValue_toNat]
  exact operandValue_lt sz o s

/-- Settles O17: the two stores of a result, and the compare, which has none. -/
theorem registerStoresSignExtendMemoryStoresDoNot :
    Obligations.RegisterStoresSignExtendMemoryStoresDoNot := by
  refine ⟨fun sz r s hr => ⟨fun d => ?_, fun ea hin => ?_⟩, fun sz dst src s t hcmp => ?_⟩
  · exact ⟨_, destWrite_reg d s hr, fun x => State.reg_setReg s d x _, fun _ => rfl, rfl, rfl⟩
  · obtain ⟨m, hwrite, hm⟩ := destWrite_mem hr hin
    exact ⟨_, hwrite, fun _ => rfl, hm, rfl, rfl⟩
  · exact aluCompare_storesNothing (Res.toOutcome_eq_next.mp hcmp)

/-- Settles O6, by the two cases of the fetch and then of the decoder. -/
theorem stepFetchesDecodesAndRuns : Obligations.StepFetchesDecodesAndRuns := by
  refine fun s => ⟨step_of_ge, fun hin => ?_⟩
  rw [step_eq_dispatch_memValue hin]
  exact ⟨fun i hi => dispatch_of_decode (by simpa using hi),
    fun err herr => dispatch_of_error (by simpa using herr)⟩

/-- Settles O15: the two cases of the step, the two register moves, and the source operand's value
and register in the two modes. -/
theorem registerStepBySizeAndRegister : Obligations.RegisterStepBySizeAndRegister := by
  refine ⟨fun sz => ⟨stepOf_of_special sz (.inl rfl), stepOf_of_special sz (.inr rfl)⟩,
    fun r hr => ⟨stepOf_of_lt .b8 hr, stepOf_of_lt .b16 hr, stepOf_of_lt .b32 hr⟩,
    fun sz r r' s => ⟨stepUp_reg_eq_add sz r r' s, stepDown_reg_eq_sub sz r r' s⟩,
    fun sz r s => ⟨fun hin => ?_, fun hin => ?_⟩⟩
  · refine ⟨_, _, srcValue_of_ok fun _ => hin, operandValue_toNat sz _ s, ?_⟩
    simp [afterSource_reg, sideEffect]
  · refine ⟨_, _, srcValue_of_ok fun _ => hin, operandValue_toNat sz _ s, ?_⟩
    simp [afterSource_reg, sideEffect, BitVec.sub_eq_add_neg]

end Sys2Proof.Machine
end

section
/-! PROOFS. The two-operand templates (40_step_and_operands.md R105 to R110): the destination located,
read and stored, then what each template leaves where both operands can be accessed and where one
cannot. -/

namespace Sys2Proof.Machine

/-! ## The destination located -/

@[simp] theorem destLocate_state (sz : Size) (o : Operand) (s : State) :
    (destLocate sz o s).2 = beforeAccess sz o s := by rw [destLocate_eq]

theorem destLocate_loc_direct {sz : Size} {o : Operand} {s : State} (h : o.mode = .direct) :
    (destLocate sz o s).1 = .reg o.reg := by rw [destLocate_eq]; exact if_pos h

theorem destLocate_loc_memory {sz : Size} {o : Operand} {s : State} (h : o.mode ≠ .direct) :
    (destLocate sz o s).1 = .mem (operandAddr sz o s) := by rw [destLocate_eq]; exact if_neg h

/-- A destination that cannot be accessed is a cell outside memory. -/
theorem destLocate_outside {sz : Size} {o : Operand} {s : State} (h : ¬ operandOk sz o s) :
    (destLocate sz o s).1 = .mem (operandAddr sz o s) ∧
      s.params.memSize ≤ (operandAddr sz o s).toNat := by
  obtain ⟨hm, hout⟩ := Classical.not_imp.mp h
  exact ⟨destLocate_loc_memory hm, Nat.le_of_not_lt hout⟩

/-- The state of a two-operand instruction whose destination is located and has been accessed k
times. -/
def atDestination (sz : Size) (dst src : Operand) (s : State) (k : Nat) : State :=
  { beforeAccess sz dst (afterSource sz src s) with alignLog := logAfter sz dst src s k }

theorem atDestination_zero (sz : Size) (dst src : Operand) (s : State) :
    atDestination sz dst src s 0 = beforeAccess sz dst (afterSource sz src s) := by
  rw [atDestination, logAfter, ← afterSource_alignLog, ← beforeAccess_alignLog sz dst]

@[simp] theorem atDestination_reg (sz : Size) (dst src : Operand) (s : State) (k : Nat) (r : RegId) :
    (atDestination sz dst src s k).reg r = (beforeAccess sz dst (afterSource sz src s)).reg r := rfl
@[simp] theorem atDestination_mem (sz : Size) (dst src : Operand) (s : State) (k : Nat) :
    (atDestination sz dst src s k).mem = s.mem := by simp [atDestination]
@[simp] theorem atDestination_console (sz : Size) (dst src : Operand) (s : State) (k : Nat) :
    (atDestination sz dst src s k).console = s.console := by simp [atDestination]
@[simp] theorem atDestination_params (sz : Size) (dst src : Operand) (s : State) (k : Nat) :
    (atDestination sz dst src s k).params = s.params := by simp [atDestination]
@[simp] theorem atDestination_outcome (sz : Size) (dst src : Operand) (s : State) (k : Nat) :
    (atDestination sz dst src s k).outcome = s.outcome := by simp [atDestination]
@[simp] theorem atDestination_alignLog (sz : Size) (dst src : Operand) (s : State) (k : Nat) :
    (atDestination sz dst src s k).alignLog = logAfter sz dst src s k := rfl

/-- A Direct destination adds nothing to AlignLog. -/
theorem logAfter_succ_direct {sz : Size} {dst : Operand} (h : dst.mode = .direct) (src : Operand)
    (s : State) (k : Nat) : logAfter sz dst src s (k + 1) = logAfter sz dst src s k := by
  simp [logAfter, operandEntry, h]

/-- A destination in memory adds the report of its address. -/
theorem logAfter_succ_memory {sz : Size} {dst : Operand} (h : dst.mode ≠ .direct) (src : Operand)
    (s : State) (k : Nat) : logAfter sz dst src s (k + 1) =
      logAfter sz dst src s k ++ accessEntry sz (operandAddr sz dst (afterSource sz src s)) := by
  simp [logAfter, operandEntry, h]

/-! ## The destination read and stored -/

/-- The destination operand, where it can be accessed: its value, and the report of the access. -/
theorem destRead_of_ok {sz : Size} {dst src : Operand} {s : State}
    (h : operandOk sz dst (afterSource sz src s)) :
    destRead sz (destLocate sz dst (afterSource sz src s)).1
        (destLocate sz dst (afterSource sz src s)).2 =
      .ok (BitVec.ofNat 64 (operandValue sz dst (afterSource sz src s)))
        (atDestination sz dst src s 1) := by
  rw [destLocate_state, ← atDestination_zero]
  by_cases hm : dst.mode = .direct
  · have hstate : atDestination sz dst src s 1 = atDestination sz dst src s 0 := by
      rw [atDestination, logAfter_succ_direct hm]; rfl
    rw [destLocate_loc_direct hm, destRead, masked_setWidth, hstate, atDestination_reg,
      beforeAccess_reg, operandValue, if_pos hm, operandAddr, if_neg (by simp [hm])]
  · have hvalue : operandValue sz dst (afterSource sz src s) =
        memValue sz (operandAddr sz dst (afterSource sz src s)).toNat
          (atDestination sz dst src s 0) :=
      (if_neg hm).trans (memValue_congr (by simp))
    rw [destLocate_loc_memory hm, destRead, readOperand_of_lt (by simpa using h hm), hvalue,
      atDestination_alignLog, ← logAfter_succ_memory hm]
    rfl

/-- A result stored at the destination, where it can be accessed: all that the instruction leaves but
the flags (40_step_and_operands.md R107, R109). -/
theorem destWrite_of_ok {sz : Size} {dst src : Operand} {s : State} {r : Wide} (k : Nat)
    (h : operandOk sz dst (afterSource sz src s)) (hr : r.toNat < sizeModulus sz) :
    ∃ t, destWrite sz (destLocate sz dst (afterSource sz src s)).1 r (atDestination sz dst src s k) =
        .ok () t ∧ StoresResult sz dst src s r.toNat (destFinish sz dst t) ∧
      t.alignLog = logAfter sz dst src s (k + 1) := by
  by_cases hm : dst.mode = .direct
  · refine ⟨_, by rw [destLocate_loc_direct hm, destWrite_reg _ _ hr], ⟨fun x => ?_, ?_, ?_, ?_, ?_⟩,
      (logAfter_succ_direct hm src s k).symm⟩
    · by_cases hx : x = dst.reg
      · simp [destFinish_reg, hm, hx]
      · rw [if_neg (by simp [hx])]
        exact destFinish_reg_resolved (State.reg_setReg_ne _ _ hx)
    all_goals simp [State.byte_eq, hm]
  · obtain ⟨m, hwrite, hbytes⟩ := destWrite_mem (s := atDestination sz dst src s k) hr
      (by simpa using h hm)
    refine ⟨_, by rw [destLocate_loc_memory hm, hwrite], ⟨fun x => ?_, fun a => ?_, ?_, ?_, ?_⟩,
      (logAfter_succ_memory hm src s k).symm⟩
    · rw [if_neg (by simp [hm])]
      exact destFinish_reg_resolved rfl
    · simp [State.byte_eq, hbytes, byteAfterStore, hm]
    all_goals simp

theorem StoresResult.setFlags {sz : Size} {dst src : Operand} {s t : State} {v : Nat}
    (h : StoresResult sz dst src s v t) (f : Flags) : StoresResult sz dst src s v (t.setFlags f) :=
  ⟨h.regs, h.bytes, h.console, h.params, h.outcome⟩

/-! ## The templates where both operands can be accessed -/

/-- An S-bit number as a wide value. -/
theorem wide_toNat_of_lt {sz : Size} {v : Nat} (h : v < sizeModulus sz) :
    (BitVec.ofNat 64 v).toNat = v := by
  have hsize := sizeModulus_le sz
  rw [BitVec.toNat_ofNat, Nat.mod_eq_of_lt (by omega)]

theorem masked_toNat_lt (sz : Size) (w : Wide) : (masked sz w).toNat < sizeModulus sz := by
  rw [masked_toNat]; exact Nat.mod_lt _ (sizeModulus_pos sz)

/-- The flags of a result, from the numbers of the operands. -/
theorem flagsOf_operands {kind : FlagKind} {sz : Size} {w : Wide} {a b r : Nat} {c : Bool}
    (ha : a < sizeModulus sz) (hb : b < sizeModulus sz) (hr : w.toNat % sizeModulus sz = r)
    (hc : decide (w.toNat / sizeModulus sz % 2 = 1) = c) :
    flagsOf kind sz w (BitVec.ofNat 64 a) (BitVec.ofNat 64 b) =
      resultFlags sz r (overflowOf kind (negative sz a) (negative sz b) (negative sz r)) c := by
  rw [flagsOf_eq hr, wide_toNat_of_lt ha, wide_toNat_of_lt hb, Nat.mod_eq_of_lt ha,
    Nat.mod_eq_of_lt hb, hc]

/-- A read-modify-write instruction completes where both operands can be accessed: r is the result and
c the carry of its formula f. -/
theorem aluUpdate_completes {f : Size → Wide → Wide → Wide} {sz : Size} {dst src : Operand}
    {s : State} {a b r : Nat} {c : Bool} (kind : FlagKind) (hsrc : operandOk sz src s)
    (hdst : operandOk sz dst (afterSource sz src s))
    (ha : operandValue sz dst (afterSource sz src s) = a) (hb : operandValue sz src s = b)
    (hr : (f sz (BitVec.ofNat 64 a) (BitVec.ofNat 64 b)).toNat % sizeModulus sz = r)
    (hc : decide ((f sz (BitVec.ofNat 64 a) (BitVec.ofNat 64 b)).toNat / sizeModulus sz % 2 = 1) =
      c) :
    ∃ t, (aluUpdate f kind sz dst src s).toOutcome = .next t ∧ StoresResult sz dst src s r t ∧
      t.flags = resultFlags sz r (overflowOf kind (negative sz a) (negative sz b) (negative sz r)) c ∧
      t.alignLog = logAfter sz dst src s 2 := by
  subst ha hb
  obtain ⟨t, hwrite, hstores, hlog⟩ := destWrite_of_ok 1 hdst (masked_toNat_lt sz (f sz _ _))
  rw [masked_toNat, hr] at hstores
  exact ⟨_, Res.toOutcome_eq_next.mpr (aluUpdate_eq_ok.mpr
      ⟨_, _, _, _, _, srcValue_of_ok hsrc, destRead_of_ok hdst, hwrite, rfl⟩),
    hstores.setFlags _,
    flagsOf_operands (operandValue_lt sz dst _) (operandValue_lt sz src s) hr hc,
    by simpa using hlog⟩

/-- A move completes where both operands can be accessed. -/
theorem aluMove_completes {sz : Size} {dst src : Operand} {s : State} (hsrc : operandOk sz src s)
    (hdst : operandOk sz dst (afterSource sz src s)) :
    ∃ t, (aluMove sz dst src s).toOutcome = .next t ∧
      StoresResult sz dst src s (operandValue sz src s) t ∧
      t.flags = resultFlags sz (operandValue sz src s) false false ∧
      t.alignLog = logAfter sz dst src s 1 := by
  have hb := operandValue_lt sz src s
  have hvalue := operandValue_toNat sz src s
  obtain ⟨t, hwrite, hstores, hlog⟩ := destWrite_of_ok 0 hdst (hvalue.symm ▸ hb)
  rw [hvalue] at hstores
  rw [atDestination_zero, ← destLocate_state] at hwrite
  exact ⟨_, Res.toOutcome_eq_next.mpr (aluMove_eq_ok.mpr
      ⟨_, _, _, srcValue_of_ok hsrc, hwrite, rfl⟩),
    hstores.setFlags _,
    flagsOf_operands (kind := .other) (sizeModulus_pos sz) hb
      (by rw [hvalue, Nat.mod_eq_of_lt hb]) (by simp [hvalue, Nat.div_eq_of_lt hb]),
    by simpa using hlog⟩

/-- A compare completes where both operands can be accessed: r is the result and c the carry of its
formula f. -/
theorem aluCompare_completes {f : Size → Wide → Wide → Wide} {sz : Size} {dst src : Operand}
    {s : State} {a b r : Nat} {c : Bool} (kind : FlagKind) (hsrc : operandOk sz src s)
    (hdst : operandOk sz dst (afterSource sz src s))
    (ha : operandValue sz dst (afterSource sz src s) = a) (hb : operandValue sz src s = b)
    (hr : (f sz (BitVec.ofNat 64 a) (BitVec.ofNat 64 b)).toNat % sizeModulus sz = r)
    (hc : decide ((f sz (BitVec.ofNat 64 a) (BitVec.ofNat 64 b)).toNat / sizeModulus sz % 2 = 1) =
      c) :
    ∃ t, (aluCompare f kind sz dst src s).toOutcome = .next t ∧ StoresNothing sz dst src s t ∧
      t.flags = resultFlags sz r (overflowOf kind (negative sz a) (negative sz b) (negative sz r)) c ∧
      t.alignLog = logAfter sz dst src s 1 := by
  subst ha hb
  have hcompare := aluCompare_eq_ok (f := f) (kind := kind).mpr
    ⟨_, _, _, _, srcValue_of_ok hsrc, destRead_of_ok hdst, rfl⟩
  exact ⟨_, Res.toOutcome_eq_next.mpr hcompare, aluCompare_storesNothing hcompare,
    flagsOf_operands (operandValue_lt sz dst _) (operandValue_lt sz src s) hr hc, by simp⟩

/-! ## The templates where an operand cannot be accessed -/

/-- Whatever starts with the source operand faults where that cannot be accessed. -/
theorem srcValue_bind_faults {sz : Size} {src : Operand} {s : State} {k : Wide → State → Res Unit}
    (h : ¬ operandOk sz src s) : ((srcValue sz src s).bind k).toOutcome =
      .fault (.memFault (operandAddr sz src s) (beforeAccess sz src s)) := by
  rw [srcValue_eq_stop.mpr ⟨h, rfl⟩, Res.bind_stop, Res.toOutcome_stop]

/-- So does whatever goes on with the destination read, where the destination cannot be accessed. -/
theorem srcValue_bind_destRead_faults {sz : Size} {dst src : Operand} {s : State}
    {k : Wide → State → Wide → State → Res Unit} (hsrc : operandOk sz src s)
    (hdst : ¬ operandOk sz dst (afterSource sz src s)) :
    ((srcValue sz src s).bind fun b t =>
      (destRead sz (destLocate sz dst t).1 (destLocate sz dst t).2).bind (k b t)).toOutcome =
      .fault (.memFault (operandAddr sz dst (afterSource sz src s))
        (beforeAccess sz dst (afterSource sz src s))) := by
  obtain ⟨hloc, hout⟩ := destLocate_outside hdst
  rw [srcValue_of_ok hsrc, Res.bind_ok, destLocate_state,
    destRead_eq_stop.mpr ⟨_, hloc, by simpa using hout, rfl⟩, Res.bind_stop, Res.toOutcome_stop]

theorem aluUpdate_faultsOnDestination (f : Size → Wide → Wide → Wide) (kind : FlagKind) (sz : Size)
    (dst src : Operand) (s : State) :
    faultsOnDestination (fun s => (aluUpdate f kind sz dst src s).toOutcome) sz dst src s :=
  fun hsrc hdst => srcValue_bind_destRead_faults hsrc hdst

theorem aluCompare_faultsOnDestination (f : Size → Wide → Wide → Wide) (kind : FlagKind) (sz : Size)
    (dst src : Operand) (s : State) :
    faultsOnDestination (fun s => (aluCompare f kind sz dst src s).toOutcome) sz dst src s :=
  fun hsrc hdst => srcValue_bind_destRead_faults hsrc hdst

theorem aluMove_faultsOnDestination (sz : Size) (dst src : Operand) (s : State) :
    faultsOnDestination (fun s => (aluMove sz dst src s).toOutcome) sz dst src s := by
  intro hsrc hdst
  obtain ⟨hloc, hout⟩ := destLocate_outside hdst
  have hwrite : destWrite sz (destLocate sz dst (afterSource sz src s)).1
      (BitVec.ofNat 64 (operandValue sz src s)) (destLocate sz dst (afterSource sz src s)).2 = _ :=
    destWrite_eq_stop.mpr ⟨_, hloc, by simpa using hout, rfl⟩
  rw [destLocate_state] at hwrite
  simp only [aluMove, srcValue_of_ok hsrc, Res.bind_ok, destLocate_state, hwrite, Res.bind_stop,
    Res.toOutcome_stop]

end Sys2Proof.Machine
end

section
/-! PROOFS. MOV, ADD, SUB, CMP, MUL (41_move_arith.md R130 to R134): the wide results and their V
formulas as numbers, then the obligations of the family. -/

namespace Sys2Proof.Machine

/-! ## The wide results as numbers -/

theorem overflowAdd_iff {a b r : Bool} : overflowAdd a b r = true ↔ a = b ∧ r ≠ a := by
  simp [overflowAdd]

theorem overflowSub_iff {a b r : Bool} : overflowSub a b r = true ↔ a ≠ b ∧ r = b := by
  simp [overflowSub]

theorem sizeModulus_even (sz : Size) : sizeModulus sz % 2 = 0 := by cases sz <;> rfl

section
variable {sz : Size} {a b : Nat} (ha : a < sizeModulus sz) (hb : b < sizeModulus sz)
include ha hb

theorem wideAdd_toNat :
    (wideAdd sz (BitVec.ofNat 64 a) (BitVec.ofNat 64 b)).toNat = a + b := by
  have hsize := sizeModulus_le sz
  rw [wideAdd, BitVec.toNat_add, wide_toNat_of_lt ha, wide_toNat_of_lt hb]
  omega

/-- A sum of two S-bit numbers carries into bit S or not at all. -/
theorem wideAdd_carry :
    decide ((wideAdd sz (BitVec.ofNat 64 a) (BitVec.ofNat 64 b)).toNat / sizeModulus sz % 2 = 1) =
      decide (sizeModulus sz ≤ a + b) := by
  rw [wideAdd_toNat ha hb, decide_eq_decide]
  rcases Nat.lt_or_ge (a + b) (sizeModulus sz) with h | h
  · simp [Nat.div_eq_of_lt h, h]
  · have hone : (a + b) / sizeModulus sz = 1 := Nat.div_eq_of_lt_le (by omega) (by omega)
    simp [hone, h]

theorem wideMul_toNat :
    (wideMul sz (BitVec.ofNat 64 a) (BitVec.ofNat 64 b)).toNat = a * b := by
  have hsize := sizeModulus_le sz
  have hprod : a * b < 2 ^ 64 := Nat.mul_lt_mul'' (c := 2 ^ 32) (d := 2 ^ 32) (by omega) (by omega)
  rw [wideMul, BitVec.toNat_mul, wide_toNat_of_lt ha, wide_toNat_of_lt hb,
    Nat.mod_eq_of_lt hprod]

theorem wideSub_toNat : (wideSub sz (BitVec.ofNat 64 a) (BitVec.ofNat 64 b)).toNat =
    if a < b then 2 ^ 64 - (b - a) else a - b := by
  have hsize := sizeModulus_le sz
  rw [wideSub, BitVec.toNat_sub, wide_toNat_of_lt ha, wide_toNat_of_lt hb]
  split <;> omega

/-- The wide difference wraps at 2^64, a multiple of 2^S. -/
theorem wideSub_mod :
    (wideSub sz (BitVec.ofNat 64 a) (BitVec.ofNat 64 b)).toNat % sizeModulus sz =
      (a + sizeModulus sz - b) % sizeModulus sz := by
  rw [wideSub_toNat ha hb]
  split
  · next h =>
    cases sz <;> simp only [sizeModulus_b8, sizeModulus_b16, sizeModulus_b32] at * <;> omega
  · next h => rw [Nat.sub_add_comm (Nat.le_of_not_lt h), Nat.add_mod_right]

/-- Bit S of the wide difference is the borrow: a wrapped one has all bits from S on set. -/
theorem wideSub_borrow :
    decide ((wideSub sz (BitVec.ofNat 64 a) (BitVec.ofNat 64 b)).toNat / sizeModulus sz % 2 = 1) =
      decide (a < b) := by
  rw [wideSub_toNat ha hb, decide_eq_decide]
  split
  · next h =>
    refine iff_of_true ?_ h
    cases sz <;> simp only [sizeModulus_b8, sizeModulus_b16, sizeModulus_b32] at * <;> omega
  · next h => simp [h, Nat.div_eq_of_lt ((Nat.sub_le a b).trans_lt ha)]

/-- V of ADD is signed overflow of the sum (40_step_and_operands.md R113). -/
theorem overflowAdd_eq_signedOverflow :
    overflowAdd (negative sz a) (negative sz b) (negative sz ((a + b) % sizeModulus sz)) =
      signedOverflow sz (signedValue sz a + signedValue sz b) := by
  have hwrap : (a + b) % sizeModulus sz =
      if a + b < sizeModulus sz then a + b else a + b - sizeModulus sz := by
    split
    · next h => exact Nat.mod_eq_of_lt h
    · next h => rw [Nat.mod_eq_sub_mod (by omega), Nat.mod_eq_of_lt (by omega)]
  have heven := sizeModulus_even sz
  rw [Bool.eq_iff_iff, overflowAdd_iff, signedOverflow_iff, signedValue_eq, signedValue_eq, ne_eq,
    negative_eq_iff, negative_eq_iff, hwrap]
  split_ifs <;> omega

/-- V of SUB is signed overflow of the difference (40_step_and_operands.md R113). -/
theorem overflowSub_eq_signedOverflow :
    overflowSub (negative sz a) (negative sz b)
        (negative sz ((a + sizeModulus sz - b) % sizeModulus sz)) =
      signedOverflow sz (signedValue sz a - signedValue sz b) := by
  have hwrap : (a + sizeModulus sz - b) % sizeModulus sz =
      if b ≤ a then a - b else a + sizeModulus sz - b := by
    split
    · next h =>
      rw [Nat.sub_add_comm h, Nat.add_mod_right, Nat.mod_eq_of_lt (by omega)]
    · next h => exact Nat.mod_eq_of_lt (by omega)
  have heven := sizeModulus_even sz
  rw [Bool.eq_iff_iff, overflowSub_iff, signedOverflow_iff, signedValue_eq, signedValue_eq, ne_eq,
    negative_eq_iff, negative_eq_iff, hwrap]
  split_ifs <;> omega

end

/-! ## The obligations -/

/-- The opcode byte of an instruction's word is the number of its mnemonic (30_encoding.md R66). -/
theorem specOpcode_eq {i : Instr} (h : Laws.EncodeOpcode.Statement i) :
    specOpcode i = opcodeNumber Encoding.spec (mnemonicOf i) := h _ Encoding.spec_wf

/-- Settles O18, by the move template. -/
theorem movStoresTheSource : Obligations.MovStoresTheSource := fun sz dst src s =>
  ⟨specOpcode_eq (Laws.EncodeOpcode.mov sz dst src), aluMove_completes, srcValue_bind_faults,
    aluMove_faultsOnDestination sz dst src s⟩

/-- Settles O19, by the read-modify-write template at the wide sum. -/
theorem addStoresTheSum : Obligations.AddStoresTheSum := by
  intro sz dst src s
  refine ⟨specOpcode_eq (Laws.EncodeOpcode.add sz dst src), fun hsrc hdst => ?_,
    srcValue_bind_faults, aluUpdate_faultsOnDestination wideAdd .add sz dst src s⟩
  have ha := operandValue_lt sz dst (afterSource sz src s)
  have hb := operandValue_lt sz src s
  obtain ⟨t, hexec, hstores, hflags, hlog⟩ := aluUpdate_completes .add hsrc hdst rfl rfl
    (congrArg (· % sizeModulus sz) (wideAdd_toNat ha hb)) (wideAdd_carry ha hb)
  exact ⟨t, hexec, hstores, hflags, overflowAdd_eq_signedOverflow ha hb, hlog⟩

/-- Settles O20, by the read-modify-write template at the wide difference. -/
theorem subStoresTheDifference : Obligations.SubStoresTheDifference := by
  intro sz dst src s
  refine ⟨specOpcode_eq (Laws.EncodeOpcode.sub sz dst src), fun hsrc hdst => ?_,
    srcValue_bind_faults, aluUpdate_faultsOnDestination wideSub .sub sz dst src s⟩
  have ha := operandValue_lt sz dst (afterSource sz src s)
  have hb := operandValue_lt sz src s
  obtain ⟨t, hexec, hstores, hflags, hlog⟩ := aluUpdate_completes .sub hsrc hdst rfl rfl
    (wideSub_mod ha hb) (wideSub_borrow ha hb)
  exact ⟨t, hexec, hstores, hflags, overflowSub_eq_signedOverflow ha hb, hlog⟩

/-- Settles O21, by the compare template: its wide difference is that of SUB. -/
theorem cmpSetsFlagsOnly : Obligations.CmpSetsFlagsOnly := by
  intro sz dst src s
  refine ⟨specOpcode_eq (Laws.EncodeOpcode.cmp sz dst src), fun hsrc hdst => ?_,
    srcValue_bind_faults, aluCompare_faultsOnDestination wideCmp .cmp sz dst src s⟩
  have ha := operandValue_lt sz dst (afterSource sz src s)
  have hb := operandValue_lt sz src s
  exact aluCompare_completes .cmp hsrc hdst rfl rfl (wideSub_mod ha hb) (wideSub_borrow ha hb)

/-- Settles O22, by the read-modify-write template at the wide product. -/
theorem mulStoresTheLowProduct : Obligations.MulStoresTheLowProduct := by
  intro sz dst src s
  refine ⟨specOpcode_eq (Laws.EncodeOpcode.mul sz dst src), fun hsrc hdst => ?_,
    srcValue_bind_faults, aluUpdate_faultsOnDestination wideMul .other sz dst src s⟩
  have hproduct := wideMul_toNat (operandValue_lt sz dst (afterSource sz src s))
    (operandValue_lt sz src s)
  exact aluUpdate_completes .other hsrc hdst rfl rfl (by rw [hproduct]) (by rw [hproduct])

end Sys2Proof.Machine
end

section
/-! PROOFS. AND, OR, XOR, LSL, LSR, ASR (42_logic_shift.md R150 to R155): the wide results as numbers,
for every shift count, then the obligations of the family. -/

namespace Sys2Proof.Machine

/-- A read-modify-write instruction whose wide result has no bit S stores that result and clears C; V
is cleared by its kind (40_step_and_operands.md R112). -/
theorem aluUpdate_completes_noCarry {f : Size → Wide → Wide → Wide} {sz : Size} {dst src : Operand}
    {s : State} {a b r : Nat} (hsrc : operandOk sz src s)
    (hdst : operandOk sz dst (afterSource sz src s))
    (ha : operandValue sz dst (afterSource sz src s) = a) (hb : operandValue sz src s = b)
    (hr : (f sz (BitVec.ofNat 64 a) (BitVec.ofNat 64 b)).toNat = r) (hlt : r < sizeModulus sz) :
    ∃ t, (aluUpdate f .other sz dst src s).toOutcome = .next t ∧ StoresResult sz dst src s r t ∧
      t.flags = resultFlags sz r false false ∧ t.alignLog = logAfter sz dst src s 2 :=
  aluUpdate_completes .other hsrc hdst ha hb (by rw [hr, Nat.mod_eq_of_lt hlt])
    (by simp [hr, Nat.div_eq_of_lt hlt])

/-! ## Shifts and signs of numbers -/

/-- A right shift by n or more of a number that n bits and a sign hold leaves the sign alone. -/
theorem ediv_two_pow_eq_sign {x : Int} {n k : Nat} (hlow : -2 ^ n ≤ x) (hhigh : x < 2 ^ n)
    (hk : n ≤ k) : x / 2 ^ k = if x < 0 then -1 else 0 := by
  have hpow : (2 : Int) ^ n ≤ 2 ^ k := pow_le_pow_right₀ (by decide) hk
  split
  · next hneg => exact Int.ediv_eq_neg_one_of_neg_of_le hneg (by omega)
  · next hpos => exact Int.ediv_eq_zero_of_lt (by omega) (by omega)

/-- A count above n shifts such a number as n does. -/
theorem ediv_two_pow_min {x : Int} {n : Nat} (hlow : -2 ^ n ≤ x) (hhigh : x < 2 ^ n) (k : Nat) :
    x / 2 ^ min k n = x / 2 ^ k := by
  rcases Nat.le_total k n with hk | hk
  · rw [Nat.min_eq_left hk]
  · rw [Nat.min_eq_right hk, ediv_two_pow_eq_sign hlow hhigh le_rfl,
      ediv_two_pow_eq_sign hlow hhigh hk]

theorem sizeModulus_dvd (sz : Size) : sizeModulus sz ∣ 2 ^ 64 :=
  pow_dvd_pow 2 (by cases sz <;> decide)

/-- The low S bits of a wide value are those of its two's-complement reading. -/
theorem toNat_mod_sizeModulus (sz : Size) (w : Wide) :
    w.toNat % sizeModulus sz = (w.toInt % sizeModulus sz).toNat := by
  have hdvd : (sizeModulus sz : Int) ∣ (2 ^ 64 : Nat) :=
    Int.natCast_dvd_natCast.mpr (sizeModulus_dvd sz)
  rw [BitVec.toInt_eq_toNat_bmod, ← Int.emod_emod_of_dvd _ hdvd, Int.bmod_emod,
    Int.emod_emod_of_dvd _ hdvd, ← Int.natCast_emod, Int.toNat_natCast]

theorem emod_sizeModulus_toNat_lt (sz : Size) (x : Int) :
    (x % sizeModulus sz).toNat < sizeModulus sz := by
  have hpos : (0 : Int) < sizeModulus sz := Int.natCast_pos.mpr (sizeModulus_pos sz)
  exact (Int.toNat_lt (Int.emod_nonneg x hpos.ne')).mpr (Int.emod_lt_of_pos x hpos)

/-! ## The wide results as numbers -/

section
variable {sz : Size} {a : Nat} (ha : a < sizeModulus sz)
include ha

theorem signedValue_bounds : -2 ^ 63 ≤ signedValue sz a ∧ signedValue sz a < 2 ^ 63 := by
  have hsize := sizeModulus_le sz
  rw [signedValue_eq]
  split_ifs <;> omega

/-- The sign extension to the wide accumulator is the signed reading: `sa` of R155. -/
theorem sextWide_toInt : (sextWide sz (BitVec.ofNat 64 a)).toInt = signedValue sz a := by
  have hbits : sizeBits sz ≤ 64 := by cases sz <;> decide
  have heven := sizeModulus_even sz
  rw [sextWide, BitVec.toInt_signExtend_of_le hbits, BitVec.toInt_eq_toNat_cond,
    BitVec.toNat_setWidth, wide_toNat_of_lt ha, two_pow_sizeBits, Nat.mod_eq_of_lt ha,
    signedValue_eq]
  split_ifs <;> omega

section
variable {b : Nat} (hb : b < sizeModulus sz)
include hb

theorem wideAnd_toNat :
    (wideAnd sz (BitVec.ofNat 64 a) (BitVec.ofNat 64 b)).toNat = a &&& b := by
  rw [wideAnd, BitVec.toNat_and, wide_toNat_of_lt ha, wide_toNat_of_lt hb]

theorem wideOr_toNat :
    (wideOr sz (BitVec.ofNat 64 a) (BitVec.ofNat 64 b)).toNat = a ||| b := by
  rw [wideOr, BitVec.toNat_or, wide_toNat_of_lt ha, wide_toNat_of_lt hb]

theorem wideXor_toNat :
    (wideXor sz (BitVec.ofNat 64 a) (BitVec.ofNat 64 b)).toNat = a ^^^ b := by
  rw [wideXor, BitVec.toNat_xor, wide_toNat_of_lt ha, wide_toNat_of_lt hb]

end

section
variable {k : Nat} (hk : k < sizeModulus sz)
include hk

/-- From k = 64 on the wide left shift is 0, and so is the product modulo 2^64. -/
theorem wideLsl_toNat :
    (wideLsl sz (BitVec.ofNat 64 a) (BitVec.ofNat 64 k)).toNat = a * 2 ^ k % 2 ^ 64 := by
  rw [wideLsl, wide_toNat_of_lt hk]
  split
  · rw [BitVec.toNat_shiftLeft, wide_toNat_of_lt ha, Nat.shiftLeft_eq]
  · next hcount =>
    have hdvd : 2 ^ 64 ∣ a * 2 ^ k := (pow_dvd_pow 2 (Nat.le_of_not_lt hcount)).mul_left a
    exact (Nat.mod_eq_zero_of_dvd hdvd).symm

theorem wideLsl_mod :
    (wideLsl sz (BitVec.ofNat 64 a) (BitVec.ofNat 64 k)).toNat % sizeModulus sz =
      a * 2 ^ k % sizeModulus sz := by
  rw [wideLsl_toNat ha hk, Nat.mod_mod_of_dvd _ (sizeModulus_dvd sz)]

/-- Bit S of the wide left shift is bit S - k of the value; with k = 0 that is a bit the value does
not have (42_logic_shift.md R153). -/
theorem wideLsl_carry :
    decide ((wideLsl sz (BitVec.ofNat 64 a) (BitVec.ofNat 64 k)).toNat / sizeModulus sz % 2 = 1) =
      (decide (1 ≤ k ∧ k ≤ sizeBits sz) && a.testBit (sizeBits sz - k)) := by
  have hbits : sizeBits sz < 64 := by cases sz <;> decide
  rw [wideLsl_toNat ha hk, ← two_pow_sizeBits, ← Nat.testBit_eq_decide_div_mod_eq,
    Nat.testBit_mod_two_pow, Nat.testBit_mul_two_pow, decide_eq_true hbits, Bool.true_and]
  rcases Nat.eq_zero_or_pos k with rfl | hpos
  · simp [Nat.testBit_lt_two_pow ha]
  · simp [Nat.succ_le_of_lt hpos]

/-- From k = 64 on the wide right shift is 0, and so is the quotient of a value below 2^64. -/
theorem wideLsr_toNat :
    (wideLsr sz (BitVec.ofNat 64 a) (BitVec.ofNat 64 k)).toNat = a / 2 ^ k := by
  rw [wideLsr, wide_toNat_of_lt hk]
  split
  · rw [BitVec.toNat_ushiftRight, wide_toNat_of_lt ha, Nat.shiftRight_eq_div_pow]
  · next hcount =>
    have hsize := sizeModulus_le sz
    have hpow : 2 ^ 64 ≤ 2 ^ k := Nat.pow_le_pow_right (by decide) (Nat.le_of_not_lt hcount)
    exact (Nat.div_eq_of_lt (by omega)).symm

/-- The count of the wide arithmetic shift stops at 63, where only the sign is left
(42_logic_shift.md R155). -/
theorem wideAsr_toNat :
    (wideAsr sz (BitVec.ofNat 64 a) (BitVec.ofNat 64 k)).toNat =
      ((signedValue sz a / (2 ^ k : Nat)) % sizeModulus sz).toNat := by
  obtain ⟨hlow, hhigh⟩ := signedValue_bounds ha
  rw [wideAsr, masked_toNat, toNat_mod_sizeModulus, BitVec.toInt_sshiftRight, sextWide_toInt ha,
    wide_toNat_of_lt hk, Int.shiftRight_eq_div_pow, Nat.cast_pow, Nat.cast_pow, Nat.cast_ofNat,
    ediv_two_pow_min hlow hhigh]

end
end

/-! ## The obligations -/

/-- Settles O24, by the read-modify-write template: a bitwise result of S-bit values has no bit S. -/
theorem andOrXorStoreTheBitwiseResult : Obligations.AndOrXorStoreTheBitwiseResult := by
  intro sz dst src s
  have ha := operandValue_lt sz dst (afterSource sz src s)
  have hb := operandValue_lt sz src s
  refine ⟨⟨specOpcode_eq (Laws.EncodeOpcode.and sz dst src),
      specOpcode_eq (Laws.EncodeOpcode.or sz dst src),
      specOpcode_eq (Laws.EncodeOpcode.xor sz dst src)⟩,
    fun hsrc hdst => ⟨?andResult, ?orResult, ?xorResult⟩,
    ⟨srcValue_bind_faults, srcValue_bind_faults, srcValue_bind_faults⟩,
    aluUpdate_faultsOnDestination wideAnd .other sz dst src s,
    aluUpdate_faultsOnDestination wideOr .other sz dst src s,
    aluUpdate_faultsOnDestination wideXor .other sz dst src s⟩
  case andResult =>
    exact aluUpdate_completes_noCarry hsrc hdst rfl rfl (wideAnd_toNat ha hb)
      (Nat.and_lt_two_pow _ hb)
  case orResult =>
    exact aluUpdate_completes_noCarry hsrc hdst rfl rfl (wideOr_toNat ha hb)
      (Nat.or_lt_two_pow ha hb)
  case xorResult =>
    exact aluUpdate_completes_noCarry hsrc hdst rfl rfl (wideXor_toNat ha hb)
      (Nat.xor_lt_two_pow ha hb)

/-- Settles O25, by the read-modify-write template at the wide left shift. -/
theorem lslShiftsLeft : Obligations.LslShiftsLeft := by
  intro sz dst src s
  refine ⟨specOpcode_eq (Laws.EncodeOpcode.lsl sz dst src), fun hsrc hdst => ?_,
    srcValue_bind_faults, aluUpdate_faultsOnDestination wideLsl .other sz dst src s⟩
  have ha := operandValue_lt sz dst (afterSource sz src s)
  have hk := operandValue_lt sz src s
  exact aluUpdate_completes .other hsrc hdst rfl rfl (wideLsl_mod ha hk) (wideLsl_carry ha hk)

/-- Settles O26, by the read-modify-write template: a quotient of an S-bit value has no bit S. -/
theorem lsrShiftsZerosIn : Obligations.LsrShiftsZerosIn := by
  intro sz dst src s
  refine ⟨specOpcode_eq (Laws.EncodeOpcode.lsr sz dst src), fun hsrc hdst => ?_,
    srcValue_bind_faults, aluUpdate_faultsOnDestination wideLsr .other sz dst src s⟩
  have ha := operandValue_lt sz dst (afterSource sz src s)
  have hk := operandValue_lt sz src s
  exact aluUpdate_completes_noCarry hsrc hdst rfl rfl (wideLsr_toNat ha hk)
    ((Nat.div_le_self _ _).trans_lt ha)

/-- Settles O27, by the read-modify-write template: the wide arithmetic shift is taken modulo 2^S. -/
theorem asrShiftsTheSignIn : Obligations.AsrShiftsTheSignIn := by
  intro sz dst src s
  refine ⟨specOpcode_eq (Laws.EncodeOpcode.asr sz dst src), fun hsrc hdst => ?_,
    srcValue_bind_faults, aluUpdate_faultsOnDestination wideAsr .other sz dst src s⟩
  have ha := operandValue_lt sz dst (afterSource sz src s)
  have hk := operandValue_lt sz src s
  exact aluUpdate_completes_noCarry hsrc hdst rfl rfl (wideAsr_toNat ha hk)
    (emod_sizeModulus_toNat_lt sz _)

end Sys2Proof.Machine
end

section
/-! PROOFS. CLC, CLV, CLZ, CLN, SEC, SEV, SEZ, SEN (43_flag_ops.md R170 to R177): the decoder on a word
whose opcode byte is a mnemonic's number, then the obligation of the family. -/

namespace Sys2Proof

/-- A word is decoded by the class of the mnemonic whose number is its opcode byte (30_encoding.md R65,
R66). -/
theorem decode_eq_decodeAs {e : Encoding} (he : e.wf) {w : Word} {m : Mnemonic}
    (h : opcodeNumber e m = opcodeOf e w) : decode e w = decodeAs e w m := by
  rw [decode, (lookup_eq_some he).mpr h]

end Sys2Proof

namespace Sys2Proof.Machine

/-- An instruction whose fields are none is selected by its opcode byte alone (30_encoding.md R64). -/
theorem decodesByOpcode_of_noFields {op : Byte} {i : Instr}
    (hop : opcodeNumber Encoding.spec (mnemonicOf i) = op)
    (hfields : ∀ w, decodeAs Encoding.spec w (mnemonicOf i) = .ok i) : decodesByOpcode op i := by
  intro w hw
  rw [decode_eq_decodeAs Encoding.spec_wf (hop.trans hw.symm), hfields]

/-- Settles O28: each meaning is one flag write, and each word has no field but its opcode. -/
theorem flagInstructionsWriteOneFlag : Obligations.FlagInstructionsWriteOneFlag := by
  intro s
  refine ⟨?clc, ?clv, ?clz, ?cln, ?sec, ?sev, ?sez, ?sen, ?opClc, ?opClv, ?opClz, ?opCln,
    ?opSec, ?opSev, ?opSez, ?opSen⟩
  case clc | clv | clz | cln | sec | sev | sez | sen => rfl
  all_goals exact decodesByOpcode_of_noFields rfl fun _ => rfl

end Sys2Proof.Machine
end

section
/-! PROOFS. JMP, JSR, RET (44_control_transfer.md R180 to R182): the decoder on a one-operand word,
the push and the pop that stay inside memory, the meanings behind a resolved operand, then the
obligations of the family. -/

namespace Sys2Proof.Machine

/-! ## The decoder on a one-operand word -/

/-- A one-operand instruction is selected by its opcode byte and a size, on its source fields
(30_encoding.md R65, R79). -/
theorem decodesBySource_of_decodeOne {op : Byte} {m : Mnemonic} {mk : Size → Operand → Instr}
    (hop : opcodeNumber Encoding.spec m = op)
    (hclass : ∀ w, decodeAs Encoding.spec w m = decodeOne Encoding.spec mk w) :
    decodesBySource op mk := by
  intro w sz hw hsz
  rw [decode_eq_decodeAs Encoding.spec_wf (hop.trans hw.symm), hclass, decodeOne, hsz]

/-! ## The stack inside memory -/

/-- A push inside memory: SP decreased, the bytes that fit stored there, and the alignment report
(10_state.md R28; 20_memory.md R45). -/
theorem push_eq_byteAfterStore {v : Word} {s : State} (h : (s.sp - 4).toNat < s.params.memSize) :
    ∃ m, push v s = .ok () { s.setSp (s.sp - 4) with
        mem := m, alignLog := s.alignLog ++ accessEntry .b32 (s.sp - 4) } ∧
      ∀ a, Memory.get m a = byteAfterStore .b32 (s.sp - 4).toNat v.toNat s a := by
  obtain ⟨m, hwrite, hm⟩ := memWrite_eq_byteAfterStore (sz := .b32) (v := v)
    (s := s.setSp (s.sp - 4)) h
  exact ⟨m, push_eq_ok.mpr hwrite, hm⟩

/-- A pop inside memory: the bytes that fit, SP increased, and the alignment report (10_state.md
R28; 20_memory.md R44). -/
theorem pop_eq_memValue {s : State} (h : s.sp.toNat < s.params.memSize) :
    pop s = .ok (BitVec.ofNat 32 (memValue .b32 s.sp.toNat s))
      { s.setSp (s.sp + 4) with alignLog := s.alignLog ++ accessEntry .b32 s.sp } :=
  pop_eq_ok.mpr ⟨_, memRead_eq_memValue h, rfl⟩

/-! ## The meanings behind the operand -/

/-- JMP where its operand can be accessed. -/
theorem exec_jmp_of_ok {sz : Size} {src : Operand} {s : State} (h : operandOk sz src s) :
    exec (.jmp sz src) s = .next
      ((afterSource sz src s).setPc (BitVec.ofNat 32 (operandValue sz src s))) := by
  rw [show exec (.jmp sz src) s = execJmp sz src s from rfl, execJmp, srcValue_of_ok h, Res.bind_ok,
    Res.toOutcome_ok, BitVec.setWidth_ofNat_of_le (show 32 ≤ 64 by decide)]

/-- JSR where its operand can be accessed: the push decides how it ends. -/
theorem exec_jsr_of_ok {sz : Size} {src : Operand} {s : State} (h : operandOk sz src s) :
    exec (.jsr sz src) s =
      ((push (afterSource sz src s).pc (afterSource sz src s)).bind fun _ t =>
        .ok () (t.setPc (BitVec.ofNat 32 (operandValue sz src s)))).toOutcome := by
  rw [show exec (.jsr sz src) s = execJsr sz src s from rfl, execJsr, srcValue_of_ok h, Res.bind_ok,
    BitVec.setWidth_ofNat_of_le (show 32 ≤ 64 by decide)]

theorem exec_ret (s : State) :
    exec .ret s = ((pop s).bind fun t u => .ok () (u.setPc t)).toOutcome := rfl

/-! ## The obligations -/

/-- Settles O29: the source operand resolved, then one write of pc. -/
theorem jmpGoesToTheOperandsValue : Obligations.JmpGoesToTheOperandsValue := fun sz src _ =>
  ⟨decodesBySource_of_decodeOne (m := .jmp) rfl fun _ => rfl,
    specOpcode_eq (Laws.EncodeOpcode.jmp sz src), exec_jmp_of_ok, srcValue_bind_faults⟩

/-- Settles O30: behind the resolved operand, the two ends of the push. -/
theorem jsrPushesPcAndJumps : Obligations.JsrPushesPcAndJumps := by
  intro sz src s s1 sp
  refine ⟨decodesBySource_of_decodeOne (m := .jsr) rfl fun _ => rfl,
    specOpcode_eq (Laws.EncodeOpcode.jsr sz src), fun hok hin => ?pushed, fun hok hout => ?outside,
    srcValue_bind_faults⟩
  case pushed =>
    obtain ⟨m, hpush, hm⟩ := push_eq_byteAfterStore (v := s1.pc) (s := s1) hin
    have hexec := exec_jsr_of_ok hok
    rw [hpush, Res.bind_ok, Res.toOutcome_ok] at hexec
    refine ⟨_, hexec, State.setPc_pc _ _, ?sp, fun r h14 h15 => ?reg, hm, rfl, rfl, rfl, rfl, rfl⟩
    case sp => exact (State.setPc_sp _ _).trans (State.setSp_sp s1 sp)
    case reg => exact (State.reg_setReg_ne _ _ h15).trans (State.reg_setReg_ne s1 sp h14)
  case outside =>
    rw [exec_jsr_of_ok hok, push_eq_stop.mpr ⟨hout, rfl⟩, Res.bind_stop, Res.toOutcome_stop]

/-- Settles O31, by the two ends of the pop. -/
theorem retPopsPc : Obligations.RetPopsPc := by
  refine fun s => ⟨decodesByOpcode_of_noFields rfl fun _ => rfl, fun hin => ?_, fun hout => ?_⟩
  · rw [exec_ret, pop_eq_memValue hin, Res.bind_ok, Res.toOutcome_ok]
    rfl
  · rw [exec_ret, pop_eq_stop.mpr ⟨hout, rfl⟩, Res.bind_stop, Res.toOutcome_stop]

end Sys2Proof.Machine
end

section
/-! PROOFS. BR to BVC (45_branches.md R190 to R205): the word of layout BT under the spec's tables, the
fifteen conditions as propositions on the flags, the common rule of a branch, then the obligations of
the family. -/

namespace Sys2Proof

/-- Under the spec's tables the opcode and d24 above it are the whole word: its two fields determine
its number (30_encoding.md R61, R63, R73). -/
theorem encodeBt_spec_toNat (m : Mnemonic) (d : BitVec 24) :
    (encodeBt Encoding.spec m d).toNat =
      (opcodeNumber Encoding.spec m).toNat + 256 * d.toNat := by
  obtain ⟨hop, hd⟩ := fields_encodeBt Encoding.spec_wf m d
  have low := opcodeOf_spec_toNat (encodeBt Encoding.spec m d)
  have high := field_toNat (encodeBt Encoding.spec m d) 8 24
  have bound := (encodeBt Encoding.spec m d).isLt
  rw [hop] at low
  rw [show (encodeBt Encoding.spec m d).extractLsb' 8 24 = d from hd] at high
  omega

end Sys2Proof

namespace Sys2Proof.Machine

/-! ## The conditions -/

section
variable {f : Flags}

theorem condAlways_iff : condAlways f = true ↔ True := iff_of_true rfl trivial
theorem condEqual_iff : condEqual f = true ↔ f.z = true := Iff.rfl
theorem condNotEqual_iff : condNotEqual f = true ↔ f.z = false := by simp [condNotEqual]
theorem condLess_iff : condLess f = true ↔ f.n ≠ f.v := bne_iff_ne
theorem condGreaterEqual_iff : condGreaterEqual f = true ↔ f.n = f.v := beq_iff_eq
theorem condGreater_iff : condGreater f = true ↔ f.z = false ∧ f.n = f.v := by simp [condGreater]
theorem condLessEqual_iff : condLessEqual f = true ↔ f.z = true ∨ f.n ≠ f.v := by
  simp [condLessEqual]
theorem condHigher_iff : condHigher f = true ↔ f.c = false ∧ f.z = false := by simp [condHigher]
theorem condLowerSame_iff : condLowerSame f = true ↔ f.c = true ∨ f.z = true := by
  simp [condLowerSame]
theorem condCarryClear_iff : condCarryClear f = true ↔ f.c = false := by simp [condCarryClear]
theorem condCarrySet_iff : condCarrySet f = true ↔ f.c = true := Iff.rfl
theorem condMinus_iff : condMinus f = true ↔ f.n = true := Iff.rfl
theorem condPlus_iff : condPlus f = true ↔ f.n = false := by simp [condPlus]
theorem condOverflowSet_iff : condOverflowSet f = true ↔ f.v = true := Iff.rfl
theorem condOverflowClear_iff : condOverflowClear f = true ↔ f.v = false := by
  simp [condOverflowClear]

end

/-! ## The common rule -/

/-- The target is the sum of the pc and the signed displacement as integers, modulo 2^32
(45_branches.md R190). -/
theorem branchTarget_eq_ofInt (s : State) (d : BitVec 24) :
    branchTarget s d = BitVec.ofInt 32 ((s.pc.toNat : Int) + d.toInt) := by
  rw [BitVec.ofInt_add, BitVec.ofInt_natCast, BitVec.ofNat_toNat, BitVec.setWidth_eq]
  rfl

theorem branchIf_taken (d : BitVec 24) (s : State) :
    branchIf true d s = .next (s.setPc (BitVec.ofInt 32 ((s.pc.toNat : Int) + d.toInt))) := by
  rw [← branchTarget_eq_ofInt]
  rfl

theorem branchIf_not_taken (d : BitVec 24) (s : State) : branchIf false d s = .next s := rfl

/-- An instruction of layout BT whose meaning is the common rule at a test of the flags is the branch
on what the test decides. -/
theorem branchesOn_of_branchIf {branch : BitVec 24 → Instr} {m : Mnemonic} {op : Nat}
    {cond : Flags → Prop} {test : Flags → Bool} {d : BitVec 24} {s : State}
    (hword : encode Encoding.spec (branch d) = encodeBt Encoding.spec m d)
    (hop : (opcodeNumber Encoding.spec m).toNat = op)
    (hexec : exec (branch d) s = branchIf (test s.flags) d s)
    (htest : test s.flags = true ↔ cond s.flags) : branchesOn branch op cond d s := by
  refine ⟨?word, fun htaken => ?taken, fun hnot => ?notTaken⟩
  case word => rw [hword, encodeBt_spec_toNat, hop]
  case taken => rw [hexec, htest.mpr htaken, branchIf_taken]
  case notTaken =>
    rw [hexec, Bool.eq_false_iff.mpr (hnot ∘ htest.mp), branchIf_not_taken]

/-! ## The obligations -/

/-- Settles O33: row by row, the mnemonic whose number the opcode is and what its condition decides. -/
theorem orderBranchesAddTheDisplacementIffTaken :
    Obligations.OrderBranchesAddTheDisplacementIffTaken := by
  unfold Obligations.OrderBranchesAddTheDisplacementIffTaken orderBranches
  simp only [List.forall_mem_cons]
  refine ⟨?br, ?beq, ?bne, ?blt, ?bge, ?bgt, ?ble, List.forall_mem_nil _⟩ <;> intro d s
  case br => exact branchesOn_of_branchIf (m := .br) rfl rfl rfl condAlways_iff
  case beq => exact branchesOn_of_branchIf (m := .beq) rfl rfl rfl condEqual_iff
  case bne => exact branchesOn_of_branchIf (m := .bne) rfl rfl rfl condNotEqual_iff
  case blt => exact branchesOn_of_branchIf (m := .blt) rfl rfl rfl condLess_iff
  case bge => exact branchesOn_of_branchIf (m := .bge) rfl rfl rfl condGreaterEqual_iff
  case bgt => exact branchesOn_of_branchIf (m := .bgt) rfl rfl rfl condGreater_iff
  case ble => exact branchesOn_of_branchIf (m := .ble) rfl rfl rfl condLessEqual_iff

/-- Settles O34, row by row as O33. -/
theorem flagBranchesAddTheDisplacementIffTaken :
    Obligations.FlagBranchesAddTheDisplacementIffTaken := by
  unfold Obligations.FlagBranchesAddTheDisplacementIffTaken flagBranches
  simp only [List.forall_mem_cons]
  refine ⟨?bhi, ?blos, ?bcc, ?bcs, ?bmi, ?bpl, ?bvs, ?bvc, List.forall_mem_nil _⟩ <;> intro d s
  case bhi => exact branchesOn_of_branchIf (m := .bhi) rfl rfl rfl condHigher_iff
  case blos => exact branchesOn_of_branchIf (m := .blos) rfl rfl rfl condLowerSame_iff
  case bcc => exact branchesOn_of_branchIf (m := .bcc) rfl rfl rfl condCarryClear_iff
  case bcs => exact branchesOn_of_branchIf (m := .bcs) rfl rfl rfl condCarrySet_iff
  case bmi => exact branchesOn_of_branchIf (m := .bmi) rfl rfl rfl condMinus_iff
  case bpl => exact branchesOn_of_branchIf (m := .bpl) rfl rfl rfl condPlus_iff
  case bvs => exact branchesOn_of_branchIf (m := .bvs) rfl rfl rfl condOverflowSet_iff
  case bvc => exact branchesOn_of_branchIf (m := .bvc) rfl rfl rfl condOverflowClear_iff

end Sys2Proof.Machine
end

section
/-! PROOFS. BPT, HLT, NOP (46_trap_halt.md R211 to R213): the obligation of the family. -/

namespace Sys2Proof.Machine

/-- Settles O36: BPT and HLT write the outcome alone and NOP writes nothing, and each word has no field
but its opcode. -/
theorem bptHltNopChangeOnlyTheOutcome : Obligations.BptHltNopChangeOnlyTheOutcome := by
  intro s
  refine ⟨?bpt, ?hlt, ?nop, ?opBpt, ?opHlt, ?opNop⟩
  case bpt | hlt | nop => rfl
  case opBpt | opHlt | opNop => exact decodesByOpcode_of_noFields rfl fun _ => rfl

end Sys2Proof.Machine
end

section
/-! PROOFS. Encoder and decoder are inverse (30_encoding.md R73) under every legal encoding: each
class of words read back and written again, then the obligations of the family. -/

namespace Sys2Proof

/-! ## Decode after encode, class by class -/

theorem Operand.divReserved_iff {dst : Operand} :
    dst.divReserved = true ↔ dst.mode = .direct ∧ dst.reg = 15 := by
  simp [Operand.divReserved]

/-- The opcode byte of an instruction's word is its mnemonic's number (30_encoding.md R66). -/
theorem opcodeOf_encode (i : Instr) : Laws.EncodeOpcode.Statement i := by
  intro e he
  cases i with
  | hlt | nop | ret | bpt | clc | clv | clz | cln | sec | sev | sez | sen =>
    exact opcodeOf_encodeNone he _
  | jmp | jsr | mov | add | sub | cmp | mul | div | and | or | xor | lsl | lsr | asr =>
    exact opcodeOf_encodeOp he _ _ _ _ _ _
  | br | beq | bne | blt | bge | bgt | ble | bhi | blos | bcc | bcs | bmi | bpl | bvs | bvc | emt =>
    exact opcodeOf_encodeBt he _ _

section
variable {e : Encoding} (he : e.wf)
include he

/-- A size field that holds a size's code gives the size. -/
theorem sizeOf?_eq_ok {w : Word} {sz : Size} :
    sizeOf? e w = .ok sz ↔ codeOfSize e sz = w.extractLsb' e.szLo 2 := by
  rw [← sizeOfCode_eq_some he, sizeOf?]
  cases sizeOfCode e (w.extractLsb' e.szLo 2) <;> simp

section
variable (m : Mnemonic) (sz : Size) (dst src : Operand)

theorem sizeOf?_encodeOp (dm sm : BitVec 2) (dr sr : BitVec 4) :
    sizeOf? e (encodeOp e m sz dm sm dr sr) = .ok sz := by
  obtain ⟨-, hsz, -⟩ := fields_encodeOp he m sz dm sm dr sr
  exact (sizeOf?_eq_ok he).mpr hsz.symm

theorem srcOf_encodeOp (dm : BitVec 2) (dr : BitVec 4) :
    srcOf e (encodeOp e m sz dm (codeOfMode e src.mode) dr (BitVec.ofFin src.reg)) = src := by
  obtain ⟨-, -, -, hsm, -, hsr⟩ :=
    fields_encodeOp he m sz dm (codeOfMode e src.mode) dr (BitVec.ofFin src.reg)
  rw [srcOf, hsm, hsr, (modeOfCode_eq he).mpr rfl]

theorem dstOf_encodeOp (sm : BitVec 2) (sr : BitVec 4) :
    dstOf e (encodeOp e m sz (codeOfMode e dst.mode) sm (BitVec.ofFin dst.reg) sr) = dst := by
  obtain ⟨-, -, hdm, -, hdr, -⟩ :=
    fields_encodeOp he m sz (codeOfMode e dst.mode) sm (BitVec.ofFin dst.reg) sr
  rw [dstOf, hdm, hdr, (modeOfCode_eq he).mpr rfl]

theorem decodeOne_encodeOne (mk : Size → Operand → Instr) :
    decodeOne e mk (encodeOne e m sz src) = .ok (mk sz src) := by
  rw [decodeOne, encodeOne, sizeOf?_encodeOp he, srcOf_encodeOp he]

theorem decodeTwo_encodeTwo (mk : Size → Operand → Operand → Instr) :
    decodeTwo e mk (encodeTwo e m sz dst src) = .ok (mk sz dst src) := by
  rw [decodeTwo, encodeTwo, sizeOf?_encodeOp he, dstOf_encodeOp he, srcOf_encodeOp he]

theorem decodeDiv_encodeTwo (hdst : ¬ dst.divReserved = true) :
    decodeDiv e (encodeTwo e m sz dst src) = .ok (.div sz dst src) := by
  rw [Operand.divReserved_iff] at hdst
  rw [decodeDiv, encodeTwo, sizeOf?_encodeOp he, dstOf_encodeOp he, srcOf_encodeOp he]
  exact if_neg hdst

end

theorem d24Of_encodeBt (m : Mnemonic) (d : BitVec 24) : d24Of e (encodeBt e m d) = d :=
  (fields_encodeBt he m d).2

theorem decodeAs_encode {i : Instr} (hi : i.wellFormed = true) :
    decodeAs e (encode e i) (mnemonicOf i) = .ok i := by
  cases i with
  | hlt | nop | ret | bpt | clc | clv | clz | cln | sec | sev | sez | sen => rfl
  | jmp | jsr => exact decodeOne_encodeOne he _ _ _ _
  | mov | add | sub | cmp | mul | and | or | xor | lsl | lsr | asr =>
    exact decodeTwo_encodeTwo he _ _ _ _ _
  | div sz dst src =>
    exact decodeDiv_encodeTwo he _ _ _ _ (by simpa [Instr.wellFormed] using hi)
  | br d | beq d | bne d | blt d | bge d | bgt d | ble d | bhi d | blos d | bcc d | bcs d | bmi d
  | bpl d | bvs d | bvc d | emt d =>
    simp only [encode, mnemonicOf, decodeAs, d24Of_encodeBt he]

theorem decode_encode {i : Instr} (hi : i.wellFormed = true) : decode e (encode e i) = .ok i := by
  rw [decode_eq_decodeAs he (opcodeOf_encode i e he).symm, decodeAs_encode he hi]

/-! ## Encode after decode, class by class -/

theorem codeOfMode_modeOfCode (c : BitVec 2) : codeOfMode e (modeOfCode e c) = c :=
  (modeOfCode_eq he).mp rfl

end

/-- A field laid back where it was read keeps its bits of the word and clears all others. -/
theorem field_eq_and_fieldMask (w : Word) (lo n : Nat) :
    (w.extractLsb' lo n).setWidth 32 <<< lo = w &&& Machine.fieldMask n lo := by
  apply BitVec.eq_of_getLsbD_eq
  intro i hi
  by_cases hlo : lo ≤ i
  · have hpos : lo + (i - lo) = i := by omega
    simp [Machine.fieldMask, hi, hpos, Nat.not_lt.mpr hlo, Bool.and_comm]
  · simp [Machine.fieldMask, Nat.lt_of_not_le hlo]

theorem decodeOne_eq_ok {e : Encoding} {mk : Size → Operand → Instr} {w : Word} {i : Instr} :
    decodeOne e mk w = .ok i ↔ ∃ sz, sizeOf? e w = .ok sz ∧ mk sz (srcOf e w) = i := by
  unfold decodeOne
  cases sizeOf? e w <;> simp

theorem decodeTwo_eq_ok {e : Encoding} {mk : Size → Operand → Operand → Instr} {w : Word}
    {i : Instr} : decodeTwo e mk w = .ok i ↔
      ∃ sz, sizeOf? e w = .ok sz ∧ mk sz (dstOf e w) (srcOf e w) = i := by
  unfold decodeTwo
  cases sizeOf? e w <;> simp

theorem decodeDiv_eq_ok {e : Encoding} {w : Word} {i : Instr} : decodeDiv e w = .ok i ↔
    ∃ sz, sizeOf? e w = .ok sz ∧ ¬ (dstOf e w).divReserved = true ∧
      .div sz (dstOf e w) (srcOf e w) = i := by
  unfold decodeDiv
  rw [Operand.divReserved_iff]
  cases sizeOf? e w with
  | error err => simp
  | ok sz => by_cases hdst : (dstOf e w).mode = .direct ∧ (dstOf e w).reg = 15 <;> simp [hdst]

section
variable {e : Encoding} (he : e.wf) {w : Word} {m : Mnemonic}
  (hop : opcodeNumber e m = opcodeOf e w)
include hop

theorem encodeNone_of_fields : encodeNone e m = w &&& Machine.fieldMask 8 e.opLo := by
  rw [encodeNone, hop, opcodeOf, field_eq_and_fieldMask]

theorem encodeBt_of_fields : encodeBt e m (d24Of e w) =
    w &&& (Machine.fieldMask 8 e.opLo ||| Machine.fieldMask 24 e.d24Lo) := by
  rw [encodeBt, encodeNone_of_fields hop, d24Of, field_eq_and_fieldMask, BitVec.and_or_distrib_left]

include he

theorem encodeOne_of_fields {sz : Size} (hsz : sizeOf? e w = .ok sz) :
    encodeOne e m sz (srcOf e w) =
      w &&& (Machine.fieldMask 8 e.opLo ||| Machine.fieldMask 2 e.szLo |||
        Machine.fieldMask 2 e.smLo ||| Machine.fieldMask 4 e.srLo) := by
  simp only [encodeOne, encodeOp, srcOf, encodeNone_of_fields hop, (sizeOf?_eq_ok he).mp hsz,
    codeOfMode_modeOfCode he, BitVec.ofFin_toFin, field_eq_and_fieldMask,
    BitVec.and_or_distrib_left, BitVec.ofNat_eq_ofNat, BitVec.setWidth_zero,
    BitVec.zero_shiftLeft, BitVec.or_zero]

theorem encodeTwo_of_fields {sz : Size} (hsz : sizeOf? e w = .ok sz) :
    encodeTwo e m sz (dstOf e w) (srcOf e w) =
      w &&& (Machine.fieldMask 8 e.opLo ||| Machine.fieldMask 2 e.szLo |||
        Machine.fieldMask 2 e.dmLo ||| Machine.fieldMask 2 e.smLo ||| Machine.fieldMask 4 e.drLo |||
        Machine.fieldMask 4 e.srLo) := by
  simp only [encodeTwo, encodeOp, srcOf, dstOf, encodeNone_of_fields hop, (sizeOf?_eq_ok he).mp hsz,
    codeOfMode_modeOfCode he, BitVec.ofFin_toFin, field_eq_and_fieldMask,
    BitVec.and_or_distrib_left]

/-- An instruction decoded by the class of a mnemonic has that mnemonic, and its word is the bits
that the class reads. -/
theorem encode_of_decodeAs {i : Instr} (h : decodeAs e w m = .ok i) :
    mnemonicOf i = m ∧ encode e i = w &&& Machine.readMask e i ∧ i.wellFormed = true := by
  cases m with
  | hlt | nop | ret | bpt | clc | clv | clz | cln | sec | sev | sez | sen =>
    obtain rfl := Except.ok.inj h
    exact ⟨rfl, encodeNone_of_fields hop, rfl⟩
  | jmp | jsr =>
    obtain ⟨sz, hsz, rfl⟩ := decodeOne_eq_ok.mp h
    exact ⟨rfl, encodeOne_of_fields he hop hsz, rfl⟩
  | mov | add | sub | cmp | mul | and | or | xor | lsl | lsr | asr =>
    obtain ⟨sz, hsz, rfl⟩ := decodeTwo_eq_ok.mp h
    exact ⟨rfl, encodeTwo_of_fields he hop hsz, rfl⟩
  | div =>
    obtain ⟨sz, hsz, hdst, rfl⟩ := decodeDiv_eq_ok.mp h
    exact ⟨rfl, encodeTwo_of_fields he hop hsz, by simpa [Instr.wellFormed] using hdst⟩
  | br | beq | bne | blt | bge | bgt | ble | bhi | blos | bcc | bcs | bmi | bpl | bvs | bvc | emt =>
    obtain rfl := Except.ok.inj h
    exact ⟨rfl, encodeBt_of_fields hop, rfl⟩

end

/-- An instruction that the decoder answers: the word's opcode is its mnemonic's number, and
encoding clears the bits that its class does not read. -/
theorem encode_of_decode {e : Encoding} (he : e.wf) {w : Word} {i : Instr}
    (h : decode e w = .ok i) : opcodeNumber e (mnemonicOf i) = opcodeOf e w ∧
      encode e i = w &&& Machine.readMask e i ∧ i.wellFormed = true := by
  unfold decode at h
  cases hm : e.opcodes.lookup (opcodeOf e w) with
  | none => rw [hm] at h; cases h
  | some m =>
    rw [hm] at h
    have hop := (lookup_eq_some he).mp hm
    obtain ⟨rfl, hword⟩ := encode_of_decodeAs he hop h
    exact ⟨hop, hword⟩

/-- The bits of each class under the spec's tables, as numbers (30_encoding.md R64, R70, R79). -/
theorem readMask_spec (i : Instr) : Machine.readMask Encoding.spec i = Machine.readBits i := by
  cases i <;> rfl

end Sys2Proof

namespace Sys2Proof.Machine

/-! ## The obligations -/

/-- Settles O3: the decoder reads back the opcode, then the fields of the instruction's class. -/
theorem decodeOfEncodeIsTheInstruction : Obligations.DecodeOfEncodeIsTheInstruction :=
  fun _ he _ hi => decode_encode he hi

/-- Settles O4: each field the decoder reads is laid back where it stood. -/
theorem encodeOfDecodeClearsIgnoredBits : Obligations.EncodeOfDecodeClearsIgnoredBits :=
  ⟨fun _ he _ _ h => (encode_of_decode he h).2, readMask_spec⟩

/-- Settles O43: the word fetched is decoded, by the machine's own tables, to the instruction. -/
theorem everyLegalEncodingRunsItsWords : Obligations.EveryLegalEncodingRunsItsWords := by
  intro i s s' ⟨⟨_, he⟩, _⟩ hi hread
  rw [step_of_memRead hread]
  exact dispatch_of_decode (by simpa using decode_encode he hi)

/-- Settles O1: nothing is listed in memory, and the parameters are those of the examples. -/
theorem resetStateIsWellFormed : Obligations.ResetStateIsWellFormed :=
  ⟨⟨⟨by decide, Encoding.spec_wf⟩, Memory.wf_nil, List.forall_mem_nil _⟩, rfl, rfl, rfl⟩

/-- Settles O2, by running decoder and encoder on the words. -/
theorem sampleWordsDecode : Obligations.SampleWordsDecode :=
  ⟨rfl, rfl, rfl, rfl, rfl, rfl, rfl, rfl, rfl, rfl⟩

end Sys2Proof.Machine
end

section
/-! PROOFS. What every instruction and every step keeps (10_state.md R30, R34, R35; 20_memory.md
R42; 60_exceptions.md R220, R221): one relation between the states before and after, with a
permission for each part that only some instructions write, proved once for each operation and each
template; the obligations of the family are its projections. -/

namespace Sys2Proof.Machine

/-! ## The relation -/

/-- A permission for each part of the state that only some instructions write. -/
structure Writes where
  memory : Bool
  flags : Bool
  outcome : Bool

def Writes.none : Writes := ⟨false, false, false⟩

def Writes.all : Writes := ⟨true, true, true⟩

/-- The instructions that write the outcome (60_exceptions.md R220). -/
def endsRun : Instr → Bool
  | .hlt | .bpt => true
  | _ => false

/-- What an instruction may write, in the words of the statements. -/
def Writes.of (s : State) (i : Instr) : Writes := ⟨mayStore s i, writesFlags i, endsRun i⟩

/-- What lies between s and t has kept the parameters and the well-formedness, let the streams only
grow, and left alone what it may not write. -/
structure Evolves (p : Writes) (s t : State) : Prop where
  params : t.params = s.params
  console : s.console <+: t.console
  alignLog : s.alignLog <+: t.alignLog
  wf : s.wf → t.wf
  mem : p.memory = false → t.mem = s.mem
  flags : p.flags = false → t.flags = s.flags
  outcome : p.outcome = false → t.outcome = s.outcome

/-- A piece of pseudocode that starts in s ends so: an error outcome comes before every write that
needs a permission. -/
def Res.Ends {α : Type} (p : Writes) (s : State) : Res α → Prop
  | .ok _ t => Evolves p s t
  | .stop f => Evolves .none s (leftBehind f)

/-- The same of an instruction. -/
def OutcomeEnds (p : Writes) (s : State) : Host.Outcome State Fault Refusal → Prop
  | .next t => Evolves p s t
  | .fault f => Evolves .none s (leftBehind f)
  | .refused _ => True

section
variable {p : Writes} {s t u : State}

theorem Evolves.trans (h : Evolves p s t) (h' : Evolves p t u) : Evolves p s u where
  params := h'.params.trans h.params
  console := h.console.trans h'.console
  alignLog := h.alignLog.trans h'.alignLog
  wf := h'.wf ∘ h.wf
  mem hp := (h'.mem hp).trans (h.mem hp)
  flags hp := (h'.flags hp).trans (h.flags hp)
  outcome hp := (h'.outcome hp).trans (h.outcome hp)

theorem Evolves.of_none (h : Evolves .none s t) : Evolves p s t :=
  { h with
    mem := fun _ => h.mem rfl
    flags := fun _ => h.flags rfl
    outcome := fun _ => h.outcome rfl }

theorem Evolves.to_all (h : Evolves p s t) : Evolves .all s t :=
  { h with mem := nofun, flags := nofun, outcome := nofun }

/-- Registers and AlignLog are written without a permission. -/
theorem Evolves.of_frame (hmem : t.mem = s.mem) (hflags : t.flags = s.flags)
    (hconsole : t.console = s.console) (hparams : t.params = s.params)
    (houtcome : t.outcome = s.outcome) (hlog : s.alignLog <+: t.alignLog) : Evolves p s t where
  params := hparams
  console := hconsole ▸ List.prefix_rfl
  alignLog := hlog
  wf h := by rw [State.wf, hmem, hparams]; exact h
  mem _ := hmem
  flags _ := hflags
  outcome _ := houtcome

/-! ## Each write of the state -/

theorem Evolves.refl (p : Writes) (s : State) : Evolves p s s :=
  .of_frame rfl rfl rfl rfl rfl List.prefix_rfl

theorem evolves_setReg (p : Writes) (s : State) (r : RegId) (v : Word) :
    Evolves p s (s.setReg r v) := .of_frame rfl rfl rfl rfl rfl List.prefix_rfl

theorem evolves_logAccess (p : Writes) (s : State) (sz : Size) (a : Word) :
    Evolves p s (s.logAccess sz a) :=
  .of_frame (by simp) (by simp) (by simp) (by simp) (by simp) (by simp [State.logAccess_alignLog])

theorem evolves_print (p : Writes) (s : State) (b : Byte) : Evolves p s (s.print b) :=
  { Evolves.refl p s with console := List.prefix_append _ _ }

theorem evolves_setFlags (hp : p.flags = true) (s : State) (f : Flags) :
    Evolves p s (s.setFlags f) :=
  { Evolves.refl p s with flags := fun hp' => absurd (hp'.symm.trans hp) Bool.false_ne_true }

theorem evolves_setOutcome (hp : p.outcome = true) (s : State) (o : StepOutcome) :
    Evolves p s (s.setOutcome o) :=
  { Evolves.refl p s with outcome := fun hp' => absurd (hp'.symm.trans hp) Bool.false_ne_true }

theorem evolves_beforeAccess (p : Writes) (sz : Size) (o : Operand) (s : State) :
    Evolves p s (beforeAccess sz o s) :=
  .of_frame (by simp) (by simp) (by simp) (by simp) (by simp) (by simp)

theorem evolves_destLocate (p : Writes) (sz : Size) (o : Operand) (s : State) :
    Evolves p s (destLocate sz o s).2 := destLocate_state sz o s ▸ evolves_beforeAccess p sz o s

theorem evolves_destFinish (p : Writes) (sz : Size) (o : Operand) (s : State) :
    Evolves p s (destFinish sz o s) :=
  .of_frame (by simp) (by simp) (by simp) (by simp) (by simp) (by simp)

theorem evolves_storeRemainder (p : Writes) (sz : Size) (o : Operand) (rem : Wide) (s : State) :
    Evolves p s (storeRemainder sz o rem s) := by
  rw [storeRemainder_eq]
  split
  · exact evolves_setReg p s _ _
  · exact .refl p s

/-- A memory that stays canonical and inside the address space. -/
theorem evolves_withMem (hp : p.memory = true) {m : Memory}
    (hm : s.wf → Memory.wf m ∧ ∀ x ∈ m, x.1 < s.params.memSize) :
    Evolves p s { s with mem := m } :=
  { Evolves.refl p s with
    wf := fun hs => ⟨hs.1, hm hs⟩
    mem := fun hp' => absurd (hp'.symm.trans hp) Bool.false_ne_true }

/-! ## Pseudocode -/

section
variable {α β : Type} {r : Res α}

theorem Res.Ends.after (h : r.Ends p t) (hst : Evolves .none s t) : r.Ends p s := by
  cases r with
  | ok a u => exact hst.of_none.trans h
  | stop f => exact hst.trans h

/-- Statements that need no permission, and then others. -/
theorem Res.Ends.bind {k : α → State → Res β} (hr : r.Ends .none s)
    (hk : ∀ a t, (k a t).Ends p t) : (r.bind k).Ends p s := by
  cases r with
  | ok a t => exact (hk a t).after hr
  | stop f => exact hr

/-- Statements after which no error outcome is left. -/
theorem Res.Ends.bind_ok {g : α → State → β} {k : α → State → State} (hr : r.Ends p s)
    (hk : ∀ a t, Evolves p t (k a t)) : (r.bind fun a t => .ok (g a t) (k a t)).Ends p s := by
  cases r with
  | ok a t => exact Evolves.trans hr (hk a t)
  | stop f => exact hr

theorem Res.Ends.of_none (h : r.Ends .none s) : r.Ends p s := by
  cases r with
  | ok a t => exact Evolves.of_none h
  | stop f => exact h

theorem Res.Ends.toOutcome {r : Res Unit} (h : r.Ends p s) : OutcomeEnds p s r.toOutcome := by
  cases r <;> exact h

end

/-! ## Memory and the stack -/

theorem memRead_ends (sz : Size) (a : Word) (s : State) : (memRead sz a s).Ends .none s := by
  rcases Nat.lt_or_ge a.toNat s.params.memSize with h | h
  · rw [memRead_of_lt h]; exact evolves_logAccess _ s sz a
  · rw [memRead_of_ge h]; exact .refl _ s

theorem memWrite_ends (hp : p.memory = true) (sz : Size) (a v : Word) (s : State) :
    (memWrite sz a v s).Ends p s := by
  cases h : memWrite sz a v s with
  | stop f =>
    obtain ⟨-, rfl⟩ := memWrite_eq_stop.mp h
    exact .refl _ s
  | ok u t =>
    have hlog := evolves_logAccess p s sz a
    have hmem : s.wf → t.mem.wf ∧ ∀ x ∈ t.mem, x.1 < t.params.memSize :=
      fun ⟨⟨⟨hmul, _⟩, _⟩, hmem, hin⟩ => ⟨memWrite_wf h hmem, memWrite_inside h hmul hin⟩
    obtain ⟨-, rfl⟩ := memWrite_eq_ok.mp h
    exact
      { hlog with
        wf := fun hs => ⟨(hlog.wf hs).1, hmem hs⟩
        mem := fun hp' => absurd (hp'.symm.trans hp) Bool.false_ne_true }

theorem push_ends (hp : p.memory = true) (v : Word) (s : State) : (push v s).Ends p s :=
  (memWrite_ends hp .b32 _ v _).after (evolves_setReg _ s 14 _)

theorem pop_ends (s : State) : (pop s).Ends .none s :=
  (memRead_ends .b32 s.sp s).bind_ok fun _ t => evolves_setReg _ t 14 _

/-! ## Operands -/

theorem srcValue_ends (sz : Size) (o : Operand) (s : State) : (srcValue sz o s).Ends .none s := by
  cases h : srcValue sz o s with
  | ok b t =>
    obtain ⟨hmem, hflags, hconsole, hparams, houtcome, hlog⟩ := srcValue_frame h
    exact .of_frame hmem hflags hconsole hparams houtcome hlog
  | stop f =>
    obtain ⟨-, rfl⟩ := srcValue_eq_stop.mp h
    exact evolves_beforeAccess .none sz o s

theorem destRead_ends (sz : Size) (l : Loc) (s : State) : (destRead sz l s).Ends .none s := by
  cases l with
  | reg r => exact .refl _ s
  | mem ea => exact (memRead_ends sz ea s).bind_ok fun _ t => .refl _ t

/-- Only a destination in memory needs the permission. -/
theorem destWrite_ends {sz : Size} {o : Operand} (hp : o.mode ≠ .direct → p.memory = true)
    (r : Wide) (s t : State) : (destWrite sz (destLocate sz o s).1 r t).Ends p t := by
  by_cases hm : o.mode = .direct
  · rw [destLocate_loc_direct hm]; exact evolves_setReg p t _ _
  · rw [destLocate_loc_memory hm]; exact memWrite_ends (hp hm) sz _ _ t

/-! ## Templates -/

section
variable {sz : Size} {dst src : Operand} (hm : dst.mode ≠ .direct → p.memory = true)
  (hf : p.flags = true)
include hf

/-- The end of every template: the destination's AutoIncrement and the flags. -/
theorem evolves_finish (t : State) (f : Flags) : Evolves p t ((destFinish sz dst t).setFlags f) :=
  (evolves_destFinish p sz dst t).trans (evolves_setFlags hf _ f)

theorem aluCompare_ends (f : Size → Wide → Wide → Wide) (kind : FlagKind) (s : State) :
    (aluCompare f kind sz dst src s).Ends p s :=
  (srcValue_ends sz src s).bind fun _ t =>
    ((destRead_ends sz _ _).after (evolves_destLocate .none sz dst t)).bind fun _ t =>
      evolves_finish hf t _

include hm

theorem aluUpdate_ends (f : Size → Wide → Wide → Wide) (kind : FlagKind) (s : State) :
    (aluUpdate f kind sz dst src s).Ends p s :=
  (srcValue_ends sz src s).bind fun _ t =>
    ((destRead_ends sz _ _).after (evolves_destLocate .none sz dst t)).bind fun _ u =>
      (destWrite_ends hm _ t u).bind_ok fun _ v => evolves_finish hf v _

theorem aluMove_ends (s : State) : (aluMove sz dst src s).Ends p s :=
  (srcValue_ends sz src s).bind fun b t =>
    ((destWrite_ends hm b t _).bind_ok fun _ v => evolves_finish hf v _).after
      (evolves_destLocate .none sz dst t)

theorem divide_ends (s : State) : (divide sz dst src s).Ends p s := by
  refine (srcValue_ends sz src s).bind fun b t =>
    ((destRead_ends sz _ _).after (evolves_destLocate .none sz dst t)).bind fun a u => ?_
  split
  · exact .refl _ u
  · exact (destWrite_ends hm _ t u).bind_ok fun _ v =>
      ((evolves_destFinish p sz dst v).trans (evolves_storeRemainder p sz dst _ _)).trans
        (evolves_setFlags hf _ _)

end

/-! ## Traps and branches -/

theorem evolves_applyAction (hp : p.memory = true) (s : State) (act : TrapAction) :
    Evolves p s (applyAction s act) := by
  cases act with
  | setReg r v => exact evolves_setReg p s r v
  | print b => exact evolves_print p s b
  | setByte a b =>
    rw [applyAction]
    split
    · next ha =>
      refine evolves_withMem hp fun ⟨_, hmem, hin⟩ => ⟨Memory.set_wf hmem _ b, fun x hx => ?_⟩
      rcases Memory.mem_set hx with hxa | hx
      · exact hxa ▸ ha
      · exact hin x hx
    · exact .refl p s

theorem evolves_applyTrap (hp : p.memory = true) (acts : List TrapAction) (s : State) :
    Evolves p s (applyTrap acts s) := by
  induction acts generalizing s with
  | nil => exact .refl p s
  | cons act acts ih => exact (evolves_applyAction hp s act).trans (ih _)

theorem execEmt_ends {d : BitVec 24} {s : State} (hp : d ≠ s.params.emtPutchar → p.memory = true) :
    OutcomeEnds p s (execEmt d s) := by
  unfold execEmt
  split
  · exact evolves_print p s _
  · next hd =>
    cases Config.trapTable d s with
    | some acts => exact evolves_applyTrap (hp hd) acts s
    | none => trivial

theorem branchIf_ends (taken : Bool) (d : BitVec 24) (s : State) :
    OutcomeEnds p s (branchIf taken d s) := by
  cases taken with
  | true => exact evolves_setReg p s 15 _
  | false => exact .refl p s

end

/-! ## Every instruction -/

/-- Every instruction writes what its class says and nothing else; where it faults it has needed no
permission. -/
theorem exec_ends (i : Instr) (s : State) : OutcomeEnds (.of s i) s (exec i s) := by
  cases i with
  | nop => exact .refl _ s
  | hlt | bpt => exact evolves_setOutcome rfl s _
  | ret => exact (pop_ends s).of_none.bind_ok (fun _ t => evolves_setReg _ t 15 _) |>.toOutcome
  | clc | clv | clz | cln | sec | sev | sez | sen => exact evolves_setFlags rfl s _
  | jmp sz src =>
    exact ((srcValue_ends sz src s).of_none.bind_ok fun _ t => evolves_setReg _ t 15 _).toOutcome
  | jsr sz src =>
    exact ((srcValue_ends sz src s).bind fun _ t =>
      (push_ends rfl _ t).bind_ok fun _ u => evolves_setReg _ u 15 _).toOutcome
  | mov sz dst src => exact (aluMove_ends bne_iff_ne.mpr rfl s).toOutcome
  | cmp sz dst src => exact (aluCompare_ends rfl _ _ s).toOutcome
  | add sz dst src | sub sz dst src | mul sz dst src | and sz dst src | or sz dst src
  | xor sz dst src | lsl sz dst src | lsr sz dst src | asr sz dst src =>
    exact (aluUpdate_ends bne_iff_ne.mpr rfl _ _ s).toOutcome
  | div sz dst src =>
    rw [show exec (.div sz dst src) s = execDiv sz dst src s from rfl, execDiv]
    split
    · exact .refl _ s
    · exact (divide_ends bne_iff_ne.mpr rfl s).toOutcome
  | br d | beq d | bne d | blt d | bge d | bgt d | ble d | bhi d | blos d | bcc d | bcs d | bmi d
  | bpl d | bvs d | bvc d => exact branchIf_ends _ d s
  | emt d => exact execEmt_ends bne_iff_ne.mpr

theorem evolves_of_next {i : Instr} {s t : State} (h : exec i s = .next t) :
    Evolves (.of s i) s t := by
  have hends := exec_ends i s
  rwa [h] at hends

theorem evolves_of_fault {i : Instr} {s : State} {f : Fault} (h : exec i s = .fault f) :
    Evolves .none s (leftBehind f) := by
  have hends := exec_ends i s
  rwa [h] at hends

/-! ## Every step -/

/-- What the fetch does before the instruction runs. -/
theorem evolves_fetched (s : State) : Evolves .all s
    (((s.setOutcome .continue).logAccess .b32 s.pc).setPc (s.pc + 4)) :=
  ((evolves_setOutcome rfl s .continue).trans (evolves_logAccess _ _ _ _)).trans
    (evolves_setReg _ _ 15 _)

/-- Every step, whatever its outcome (60_exceptions.md R220, R221). -/
theorem step_evolves {s t : State}
    (h : step s = .next t ∨ ∃ f, step s = .fault f ∧ leftBehind f = t) : Evolves .all s t := by
  rcases step_cases s with ⟨-, hstep⟩ | ⟨w, s1, -, -, rfl, ⟨i, -, hstep⟩ | ⟨err, -, hstep⟩⟩ <;>
    rw [hstep] at h
  case inl =>
    obtain ⟨f, hf, rfl⟩ := h.resolve_left nofun
    cases hf
    exact evolves_setOutcome rfl s _
  case inr.inl =>
    refine (evolves_fetched s).trans ?_
    rcases h with h | ⟨f, h, rfl⟩
    · exact (evolves_of_next h).to_all
    · exact (evolves_of_fault h).to_all
  case inr.inr =>
    obtain ⟨f, hf, rfl⟩ := h.resolve_left nofun
    cases hf
    exact evolves_fetched s

/-! ## The outcome -/

theorem endsRun_iff {i : Instr} : endsRun i = true ↔ i = .hlt ∨ i = .bpt := by
  cases i <;> simp [endsRun]

/-- An instruction that runs with outcome Continue ends with Halt or Breakpoint where it is HLT or
BPT only. -/
theorem exec_outcome {i : Instr} {s t : State} (h : exec i s = .next t)
    (hs : s.outcome = .continue) :
    (t.outcome = .halt ↔ i = .hlt) ∧ (t.outcome = .breakpoint ↔ i = .bpt) := by
  by_cases hi : endsRun i = true
  · rcases endsRun_iff.mp hi with rfl | rfl <;> cases h <;> simp
  · obtain ⟨hhlt, hbpt⟩ := not_or.mp (hi ∘ endsRun_iff.mpr)
    have hkept := (evolves_of_next h).outcome (Bool.eq_false_iff.mpr hi)
    simp [hkept, hs, hhlt, hbpt]

/-- An instruction without fields is what exactly the words with its opcode decode to. -/
theorem decode_eq_noFields {e : Encoding} (he : e.wf) {i : Instr} {w : Word}
    (hfields : decodeAs e w (mnemonicOf i) = .ok i) :
    decode e w = .ok i ↔ opcodeNumber e (mnemonicOf i) = opcodeOf e w :=
  ⟨fun h => (encode_of_decode he h).1, fun hop => (decode_eq_decodeAs he hop).trans hfields⟩

/-- Under the spec's tables the opcode of the word at an address is the byte there. -/
theorem opcodeOf_spec_memValue (a : Nat) (s : State) :
    opcodeOf Encoding.spec (BitVec.ofNat 32 (memValue .b32 a s)) = s.byte a := by
  have hfit : min 1 (bytesInWord .b32 a) = 1 := by rw [bytesInWord, sizeBytes]; omega
  have hlow : memValue .b32 a s % 256 = (s.byte a).toNat := by
    rw [memValue, ← pow_one 256, readBytes_mod, hfit]; rfl
  have hword : memValue .b32 a s < 2 ^ 32 := memValue_lt .b32 a s
  apply BitVec.eq_of_toNat_eq
  rw [opcodeOf_spec_toNat, BitVec.toNat_ofNat, Nat.mod_eq_of_lt hword, hlow]

/-- Under the spec's tables an instruction without fields is what the step fetches exactly where the
opcode byte at pc is its number. -/
theorem decode_spec_memValue {i : Instr} {a n : Nat} {s : State}
    (hfields : ∀ w, decodeAs Encoding.spec w (mnemonicOf i) = .ok i)
    (hop : (opcodeNumber Encoding.spec (mnemonicOf i)).toNat = n) :
    decode Encoding.spec (BitVec.ofNat 32 (memValue .b32 a s)) = .ok i ↔ (s.byte a).toNat = n := by
  rw [decode_eq_noFields Encoding.spec_wf (hfields _), opcodeOf_spec_memValue, ← hop,
    BitVec.toNat_inj, eq_comm]

/-- A step with a next state has run the instruction that the word fetched decodes to. -/
theorem step_next_cases {s t : State} (h : step s = .next t) :
    ∃ i, decode s.params.encoding (BitVec.ofNat 32 (memValue .b32 s.pc.toNat s)) = .ok i ∧
      exec i (((s.setOutcome .continue).logAccess .b32 s.pc).setPc (s.pc + 4)) = .next t := by
  obtain ⟨hout, hin⟩ := stepFetchesDecodesAndRuns s
  rcases Nat.lt_or_ge s.pc.toNat s.params.memSize with hpc | hpc
  · obtain ⟨hruns, hrefuses⟩ := hin hpc
    cases hd : decode s.params.encoding (BitVec.ofNat 32 (memValue .b32 s.pc.toNat s)) with
    | ok i => exact ⟨i, rfl, (hruns i hd).symm.trans h⟩
    | error err => cases (hrefuses err hd).symm.trans h
  · cases (hout hpc).symm.trans h

/-! ## The obligations -/

/-- Settles O9: of the instruction that the step has run, and then of its opcode byte. -/
theorem outcomesComeFromHltAndBptOnly : Obligations.OutcomesComeFromHltAndBptOnly := by
  intro s t h e w
  obtain ⟨i, hi, hexec⟩ := step_next_cases h
  obtain ⟨hhalt, hbreak⟩ := exec_outcome hexec (by simp)
  have hdecodes (j : Instr) : i = j ↔ decode e w = .ok j := by rw [hi, Except.ok.injEq]
  rw [hdecodes] at hhalt hbreak
  refine ⟨hhalt, hbreak, fun hspec => ⟨hhalt.trans ?hlt, hbreak.trans ?bpt⟩⟩ <;> rw [hspec]
  case hlt => exact decode_spec_memValue (fun _ => rfl) rfl
  case bpt => exact decode_spec_memValue (fun _ => rfl) rfl

/-- Settles O7: every write that a step makes keeps the invariant. -/
theorem stepKeepsStateWellFormed : Obligations.StepKeepsStateWellFormed := fun _ hs =>
  ⟨fun _ h => (step_evolves (.inl h)).wf hs, fun _ h => (step_evolves (.inr ⟨_, h, rfl⟩)).wf hs⟩

/-- Settles O8: no write of a step takes from a stream or touches the parameters. -/
theorem streamsOnlyGrow : Obligations.StreamsOnlyGrow := fun _ _ h =>
  have hstep := step_evolves h
  ⟨hstep.params, hstep.console, hstep.alignLog⟩

/-- Settles O10: the flags of an instruction that has no permission, and of one that faults. -/
theorem flagsAreWrittenOnlyByTheirInstructions :
    Obligations.FlagsAreWrittenOnlyByTheirInstructions :=
  fun _ _ => ⟨fun _ hi h => (evolves_of_next h).flags hi, fun _ h => (evolves_of_fault h).flags rfl⟩

/-- Settles O11: the memory of an instruction that has no permission, and of one that faults. -/
theorem memoryIsWrittenOnlyByStores : Obligations.MemoryIsWrittenOnlyByStores := fun _ _ =>
  ⟨fun _ hi h _ => congrArg (Memory.get · _) ((evolves_of_next h).mem hi),
    fun _ h _ => congrArg (Memory.get · _) ((evolves_of_fault h).mem rfl)⟩

end Sys2Proof.Machine
end

section
/-! PROOFS. DIV (41_move_arith.md R135): quotient and remainder as numbers, the state after the
remainder is stored, then the obligation of the family. -/

namespace Sys2Proof.Machine

/-! ## The wide results as numbers -/

section
variable {sz : Size} {a b : Nat} (ha : a < sizeModulus sz) (hb : b < sizeModulus sz)
include ha hb

theorem quotient_toNat : (quotient (BitVec.ofNat 64 a) (BitVec.ofNat 64 b)).toNat = a / b := by
  rw [quotient, BitVec.toNat_udiv, wide_toNat_of_lt ha, wide_toNat_of_lt hb]

/-- The remainder is what the quotient leaves, and `a - q * b` does not wrap. -/
theorem remainder_toNat : (remainder (BitVec.ofNat 64 a) (BitVec.ofNat 64 b)).toNat = a % b := by
  have hsize := sizeModulus_le sz
  have hle : a / b * b ≤ a := Nat.div_mul_le_self a b
  have hmod : a % b = a - a / b * b := by rw [Nat.mod_eq_sub_mul_div, Nat.mul_comm]
  rw [remainder, BitVec.toNat_sub, BitVec.toNat_mul, quotient_toNat ha hb, wide_toNat_of_lt ha,
    wide_toNat_of_lt hb, hmod]
  omega

end

/-! ## The remainder stored -/

theorem StoresResult.storeRemainder {sz : Size} {dst src : Operand} {s t : State} {q r : Nat}
    {rem : Wide} (h : StoresResult sz dst src s q t) (hr : rem.toNat = r)
    (hlt : r < sizeModulus sz) :
    StoresQuotient sz dst src s q r (storeRemainder sz dst rem t) := by
  rw [storeRemainder_eq, sextSize_eq (by rw [hr, Nat.mod_eq_of_lt hlt])]
  by_cases hm : dst.mode = .direct
  · rw [if_pos hm]
    refine ⟨fun x => ?_, h.bytes, h.console, h.params, h.outcome⟩
    rw [State.reg_setReg, h.regs]
    simp only [hm, true_and]
  · rw [if_neg hm]
    refine ⟨fun x => ?_, h.bytes, h.console, h.params, h.outcome⟩
    rw [h.regs]
    simp only [hm, false_and, if_false]

theorem StoresQuotient.setFlags {sz : Size} {dst src : Operand} {s t : State} {q r : Nat}
    (h : StoresQuotient sz dst src s q r t) (f : Flags) :
    StoresQuotient sz dst src s q r (t.setFlags f) :=
  ⟨h.regs, h.bytes, h.console, h.params, h.outcome⟩

@[simp] theorem storeRemainder_alignLog (sz : Size) (o : Operand) (rem : Wide) (s : State) :
    (storeRemainder sz o rem s).alignLog = s.alignLog := by
  rw [storeRemainder_eq]; split <;> rfl

/-! ## The meaning behind the reserved form -/

theorem exec_div_reserved {sz : Size} {dst src : Operand} {s : State}
    (h : dst.mode = .direct ∧ dst.reg = 15) : exec (.div sz dst src) s =
      .fault (.unknown (encode s.params.encoding (.div sz dst src)) s) :=
  if_pos (Operand.divReserved_iff.mpr h)

theorem exec_div {sz : Size} {dst src : Operand} (h : ¬ (dst.mode = .direct ∧ dst.reg = 15)) :
    exec (.div sz dst src) = fun s => (divide sz dst src s).toOutcome :=
  funext fun _ => if_neg (h ∘ Operand.divReserved_iff.mp)

section
variable {sz : Size} {dst src : Operand} {s : State} (hsrc : operandOk sz src s)
  (hdst : operandOk sz dst (afterSource sz src s))
include hsrc hdst

theorem divide_completes {a b : Nat} (ha : operandValue sz dst (afterSource sz src s) = a)
    (hb : operandValue sz src s = b) (hb0 : b ≠ 0) :
    ∃ t, (divide sz dst src s).toOutcome = .next t ∧
      StoresQuotient sz dst src s (a / b) (a % b) t ∧
      t.flags = resultFlags sz (a / b) false false ∧ t.alignLog = logAfter sz dst src s 2 := by
  have halt : a < sizeModulus sz := ha ▸ operandValue_lt sz dst _
  have hblt : b < sizeModulus sz := hb ▸ operandValue_lt sz src s
  have hq := quotient_toNat halt hblt
  have hqlt : a / b < sizeModulus sz := (Nat.div_le_self a b).trans_lt halt
  have hdivisor : BitVec.ofNat 64 b ≠ 0 := fun h0 =>
    hb0 (by rw [← wide_toNat_of_lt hblt, h0]; rfl)
  obtain ⟨t, hwrite, hstores, hlog⟩ := destWrite_of_ok 1 hdst (hq.symm ▸ hqlt)
  rw [hq] at hstores
  subst ha hb
  exact ⟨_, Res.toOutcome_eq_next.mpr (divide_eq_ok.mpr
      ⟨_, _, _, _, _, srcValue_of_ok hsrc, destRead_of_ok hdst, hdivisor, hwrite, rfl⟩),
    (hstores.storeRemainder (remainder_toNat halt hblt)
      ((Nat.mod_le _ _).trans_lt halt)).setFlags _,
    flagsOf_operands halt hblt (by rw [hq, Nat.mod_eq_of_lt hqlt])
      (by simp [hq, Nat.div_eq_of_lt hqlt]),
    by simpa using hlog⟩

theorem divide_byZero (hb0 : operandValue sz src s = 0) : (divide sz dst src s).toOutcome =
    .fault (.divideError (atDestination sz dst src s 1)) := by
  rw [divide, srcValue_of_ok hsrc, Res.bind_ok, hb0]
  simp only [destRead_of_ok hdst, Res.bind_ok]
  rfl

end

theorem divide_faultsOnDestination (sz : Size) (dst src : Operand) (s : State) :
    faultsOnDestination (fun s => (divide sz dst src s).toOutcome) sz dst src s :=
  fun hsrc hdst => srcValue_bind_destRead_faults hsrc hdst

/-! ## The obligation -/

/-- Settles O23: the reserved form, and behind it the template with its divisor tested between the
destination's read and its store. -/
theorem divStoresQuotientAndRemainder : Obligations.DivStoresQuotientAndRemainder := by
  intro sz dst src s a b reserved
  refine ⟨specOpcode_eq (Laws.EncodeOpcode.div sz dst src), fun hform hsrc hdst hb0 => ?_,
    fun hform hsrc hdst hb0 => ?_, fun hform => ?_, exec_div_reserved⟩
  · rw [exec_div hform]; exact divide_completes hsrc hdst rfl rfl hb0
  · rw [exec_div hform]; exact divide_byZero hsrc hdst hb0
  · rw [exec_div hform]; exact ⟨srcValue_bind_faults, divide_faultsOnDestination sz dst src s⟩

end Sys2Proof.Machine
end

section
/-! PROOFS. RET behind JSR (44_control_transfer.md R181, R182): the obligation of the family. -/

namespace Sys2Proof.Machine

/-- A word stored at an aligned address is read back whole (20_memory.md R44, R45). -/
theorem memValue_of_word_stored {ea : Nat} {v : Word} {s t : State} (ha : ea % 4 = 0)
    (h : ∀ b, t.byte b = byteAfterStore .b32 ea v.toNat s b) :
    BitVec.ofNat 32 (memValue .b32 ea t) = v := by
  rw [memValue, bytesInWord_of_aligned .b32 ha, sizeBytes, readBytes_of_word_stored ha v.isLt h,
    BitVec.ofNat_toNat, BitVec.setWidth_eq]

/-- A JSR that completes had its operand and its push inside memory. -/
theorem jsr_next_inside {sz : Size} {src : Operand} {s t : State}
    (h : exec (.jsr sz src) s = .next t) : operandOk sz src s ∧
      ((afterSource sz src s).sp - 4).toNat < s.params.memSize := by
  obtain ⟨-, -, -, hpushFaults, hsrcFaults⟩ := jsrPushesPcAndJumps sz src s
  have hok : operandOk sz src s := by
    by_contra hbad
    cases (hsrcFaults hbad).symm.trans h
  refine ⟨hok, ?_⟩
  by_contra hout
  cases (hpushFaults hok (Nat.le_of_not_lt hout)).symm.trans h

/-- Settles O32: the word that the aligned push stored is the pc that RET pops. -/
theorem retReturnsBehindJsr : Obligations.RetReturnsBehindJsr := by
  intro sz src s t h haligned
  obtain ⟨hok, hin⟩ := jsr_next_inside h
  obtain ⟨-, -, hpushes, -⟩ := jsrPushesPcAndJumps sz src s
  obtain ⟨t', hexec, -, hsp, hregs, hbytes, hflags, -, hparams, -⟩ := hpushes hok hin
  obtain rfl : t' = t := Host.Outcome.next.inj (hexec.symm.trans h)
  obtain ⟨-, hpops, -⟩ := retPopsPc t'
  have hpc : BitVec.ofNat 32 (memValue .b32 t'.sp.toNat t') = (afterSource sz src s).pc := by
    rw [hsp] at haligned ⊢
    exact memValue_of_word_stored haligned hbytes
  refine ⟨_, hpops (by rw [hsp, hparams]; exact hin), fun r => ?_, hflags, fun _ => rfl⟩
  rw [State.withAlignLog_reg, hpc, hsp, BitVec.sub_add_cancel, State.setPc_eq, State.setSp_eq,
    State.reg_setReg, State.reg_setReg]
  split_ifs with h15 h14
  · rw [h15]; rfl
  · rw [h14]; rfl
  · exact hregs r h14 h15

end Sys2Proof.Machine
end

section
/-! PROOFS. The branches after SUB and CMP (40_step_and_operands.md R113; 45_branches.md R192 to
R201): what the flags of the difference say of the order of the operands, then the obligations of
the family. -/

namespace Sys2Proof.Machine

/-! ## Instructions that complete -/

/-- What a two-operand instruction leaves where both operands can be accessed, it leaves wherever it
completes: it faults elsewhere. -/
theorem next_of_completes {run : State → Host.Outcome State Fault Refusal} {sz : Size}
    {dst src : Operand} {s t : State} {leaves : State → Prop}
    (hcompletes : operandOk sz src s → operandOk sz dst (afterSource sz src s) →
      ∃ u, run s = .next u ∧ leaves u)
    (hfaultsSrc : faultsOnSource run sz src s) (hfaultsDst : faultsOnDestination run sz dst src s)
    (h : run s = .next t) : leaves t := by
  have hsrc : operandOk sz src s := by
    by_contra hbad
    cases (hfaultsSrc hbad).symm.trans h
  have hdst : operandOk sz dst (afterSource sz src s) := by
    by_contra hbad
    cases (hfaultsDst hsrc hbad).symm.trans h
  obtain ⟨u, hrun, hleaves⟩ := hcompletes hsrc hdst
  obtain rfl : u = t := Host.Outcome.next.inj (hrun.symm.trans h)
  exact hleaves

/-- The S-bit difference that SUB and CMP compute (41_move_arith.md R132, R133). -/
def difference (sz : Size) (a b : Nat) : Nat := (a + sizeModulus sz - b) % sizeModulus sz

theorem sub_next_flags {sz : Size} {dst src : Operand} {s t : State} {a b : Nat}
    (h : exec (.sub sz dst src) s = .next t)
    (ha : operandValue sz dst (afterSource sz src s) = a) (hb : operandValue sz src s = b) :
    t.flags = resultFlags sz (difference sz a b)
      (overflowSub (negative sz a) (negative sz b) (negative sz (difference sz a b)))
      (decide (a < b)) := by
  obtain ⟨-, hcompletes, hfaultsSrc, hfaultsDst⟩ := subStoresTheDifference sz dst src s
  obtain ⟨-, hflags, -⟩ := next_of_completes hcompletes hfaultsSrc hfaultsDst h
  subst ha hb
  exact hflags

theorem cmp_next_flags {sz : Size} {dst src : Operand} {s t : State} {a b : Nat}
    (h : exec (.cmp sz dst src) s = .next t)
    (ha : operandValue sz dst (afterSource sz src s) = a) (hb : operandValue sz src s = b) :
    t.flags = resultFlags sz (difference sz a b)
      (overflowCmp (negative sz a) (negative sz b) (negative sz (difference sz a b)))
      (decide (a < b)) := by
  obtain ⟨-, hcompletes, hfaultsSrc, hfaultsDst⟩ := cmpSetsFlagsOnly sz dst src s
  obtain ⟨-, hflags, -⟩ := next_of_completes hcompletes hfaultsSrc hfaultsDst h
  subst ha hb
  exact hflags

/-! ## The difference of two S-bit numbers -/

section
variable {sz : Size} {a b : Nat} (ha : a < sizeModulus sz) (hb : b < sizeModulus sz)
include ha hb

theorem difference_eq :
    difference sz a b = if b ≤ a then a - b else a + sizeModulus sz - b := by
  rw [difference]
  split
  · next h => rw [Nat.sub_add_comm h, Nat.add_mod_right, Nat.mod_eq_of_lt (by omega)]
  · next h => exact Nat.mod_eq_of_lt (by omega)

theorem difference_eq_zero : difference sz a b = 0 ↔ a = b := by
  rw [difference_eq ha hb]
  split_ifs <;> omega

theorem signedValue_inj : signedValue sz a = signedValue sz b ↔ a = b := by
  rw [signedValue_eq, signedValue_eq]
  split_ifs <;> omega

/-- N and the V of SUB differ exactly where the destination is the lesser signed number
(40_step_and_operands.md R113). -/
theorem negative_ne_overflowSub :
    negative sz (difference sz a b) ≠
        overflowSub (negative sz a) (negative sz b) (negative sz (difference sz a b)) ↔
      signedValue sz a < signedValue sz b := by
  have heven := sizeModulus_even sz
  rw [ne_eq, Bool.eq_iff_iff, overflowSub_iff, ne_eq, negative_eq_iff, negative_eq_iff,
    negative_iff, difference_eq ha hb, signedValue_eq, signedValue_eq]
  split_ifs <;> omega

end

/-- The V of CMP is that of SUB where the operands share sign, and its opposite where they differ
(40_step_and_operands.md R113). -/
theorem overflowCmp_eq (a b r : Bool) :
    overflowCmp a b r = if a = b then overflowSub a b r else !overflowSub a b r := by
  cases a <;> cases b <;> cases r <;> rfl

/-! ## Flags that decide an order -/

/-- Where N differs from V on x < y, and Z is set on x = y, the signed branches decide their
order. -/
theorem signedBranches_of_flags {f : Flags} {x y : Int} (hless : f.n ≠ f.v ↔ x < y)
    (hzero : f.z = true ↔ x = y) :
    (condLess f = true ↔ x < y) ∧ (condGreaterEqual f = true ↔ y ≤ x) ∧
      (condGreater f = true ↔ y < x) ∧ (condLessEqual f = true ↔ x ≤ y) := by
  have hge : f.n = f.v ↔ y ≤ x := by rw [← not_lt, ← hless, not_not]
  have hne : f.z = false ↔ x ≠ y := by rw [← Bool.not_eq_true, hzero]
  rw [condLess_iff, condGreaterEqual_iff, condGreater_iff, condLessEqual_iff, hless, hge, hne,
    hzero]
  omega

/-- Where C is set on x < y, and Z on x = y, the unsigned branches decide their order. -/
theorem unsignedBranches_of_flags {f : Flags} {x y : Nat} (hless : f.c = true ↔ x < y)
    (hzero : f.z = true ↔ x = y) :
    (condHigher f = true ↔ y < x) ∧ (condLowerSame f = true ↔ x ≤ y) ∧
      (condCarryClear f = true ↔ y ≤ x) ∧ (condCarrySet f = true ↔ x < y) ∧
      (condNotEqual f = true ↔ x ≠ y) := by
  have hge : f.c = false ↔ y ≤ x := by rw [← Bool.not_eq_true, hless, not_lt]
  have hne : f.z = false ↔ x ≠ y := by rw [← Bool.not_eq_true, hzero]
  rw [condHigher_iff, condLowerSame_iff, condCarryClear_iff, condCarrySet_iff, condNotEqual_iff,
    hge, hne, hless, hzero]
  omega

/-- Z of the difference is the equality of the operands. -/
theorem resultFlags_difference_z {sz : Size} {a b : Nat} (ha : a < sizeModulus sz)
    (hb : b < sizeModulus sz) (v c : Bool) :
    (resultFlags sz (difference sz a b) v c).z = true ↔ a = b :=
  decide_eq_true_iff.trans (difference_eq_zero ha hb)

/-! ## The obligations -/

/-- Settles O37: V of SUB is the signed overflow of the difference whose sign N is. -/
theorem signedBranchesAfterSubDecideTheOrder :
    Obligations.SignedBranchesAfterSubDecideTheOrder := by
  intro sz dst src s t h a b
  have ha := operandValue_lt sz dst (afterSource sz src s)
  have hb := operandValue_lt sz src s
  have hflags := sub_next_flags h rfl rfl
  have hzero : t.flags.z = true ↔ a = b := by
    rw [hflags, resultFlags_difference_z ha hb, signedValue_inj ha hb]
  have hless : t.flags.n ≠ t.flags.v ↔ a < b := by
    rw [hflags]; exact negative_ne_overflowSub ha hb
  obtain ⟨hlt, hge, hgt, hle⟩ := signedBranches_of_flags hless hzero
  exact ⟨hlt, hge, hgt, hle, condEqual_iff.trans hzero⟩

/-- Settles O38: with operands of one sign the flags are SUB's, else V is the opposite. -/
theorem signedBranchesAfterCmp : Obligations.SignedBranchesAfterCmp := by
  intro sz dst src s t h a b sa sb
  have ha : a < sizeModulus sz := operandValue_lt sz dst (afterSource sz src s)
  have hb : b < sizeModulus sz := operandValue_lt sz src s
  have hflags := cmp_next_flags (a := a) (b := b) h rfl rfl
  have hzero : t.flags.z = true ↔ sa = sb := by
    rw [hflags, resultFlags_difference_z ha hb, signedValue_inj ha hb]
  have hsub := negative_ne_overflowSub ha hb
  refine ⟨fun hsign => ?same, fun hsign => ?differ⟩
  case same =>
    refine signedBranches_of_flags ?_ hzero
    rw [hflags, resultFlags, overflowCmp_eq, if_pos hsign]
    exact hsub
  case differ =>
    have hne : sa ≠ sb := fun he => hsign (congrArg _ ((signedValue_inj ha hb).mp he))
    have hgreater : t.flags.n ≠ t.flags.v ↔ sb < sa := by
      rw [hflags, resultFlags, overflowCmp_eq, if_neg hsign, ← hne.symm.le_iff_lt, ← not_lt, ← hsub]
      simp
    obtain ⟨hlt, hge, hgt, hle⟩ := signedBranches_of_flags hgreater (hzero.trans eq_comm)
    refine ⟨hlt.trans ?_, hge.trans ?_, hgt.trans ?_, hle.trans ?_⟩ <;> omega

/-- Settles O39: C is the borrow of the difference, Z its being zero, after SUB and CMP alike. -/
theorem unsignedBranchesAfterSubAndCmp : Obligations.UnsignedBranchesAfterSubAndCmp := by
  intro sz dst src s t h a b
  have ha : a < sizeModulus sz := operandValue_lt sz dst (afterSource sz src s)
  have hb : b < sizeModulus sz := operandValue_lt sz src s
  have hflags : ∃ v, t.flags = resultFlags sz (difference sz a b) v (decide (a < b)) :=
    h.elim (fun h => ⟨_, sub_next_flags h rfl rfl⟩) fun h => ⟨_, cmp_next_flags h rfl rfl⟩
  obtain ⟨v, hflags⟩ := hflags
  refine unsignedBranches_of_flags ?_ ?_ <;> rw [hflags]
  · exact decide_eq_true_iff
  · exact resultFlags_difference_z ha hb _ _

end Sys2Proof.Machine
end

section
/-! PROOFS. Code in memory, runs, breakpoints (20_memory.md R53; 60_exceptions.md R226, R235): the
obligations of the family. -/

namespace Sys2Proof.Machine

/-! ## Whole words in memory -/

theorem logAccess_of_aligned {a : Word} (ha : a.toNat % 4 = 0) (s : State) :
    s.logAccess .b32 a = s :=
  State.logAccess_aligned s (by rw [misaligned, sizeBytes, ha]; rfl)

/-- A whole word replaces the word that stood there: nothing is masked out. -/
theorem mergeWord_b32_zero (v old : Word) : mergeWord .b32 0 v old = v := by
  have hmask : wordMask .b32 = BitVec.allOnes 32 := rfl
  simp only [mergeWord, hmask, Nat.mul_zero, BitVec.shiftLeft_zero, BitVec.and_allOnes,
    BitVec.not_allOnes, BitVec.and_zero, BitVec.zero_or]

/-- A store of a whole word at an aligned address inside memory. -/
theorem memWrite_word {a w : Word} {s : State} (ha : a.toNat % 4 = 0)
    (hin : a.toNat < s.params.memSize) :
    memWrite .b32 a w s = .ok () { s with mem := s.mem.setWord (a.toNat / 4) w } := by
  rw [memWrite_of_lt hin, logAccess_of_aligned ha, ha, mergeWord_b32_zero]

/-- What a store that completes leaves: pc and the parameters as they were, and the bytes stored. -/
theorem memWrite_leaves {sz : Size} {a v : Word} {s t : State} (h : memWrite sz a v s = .ok () t) :
    a.toNat < s.params.memSize ∧ t.pc = s.pc ∧ t.params = s.params ∧
      ∀ b, t.byte b = byteAfterStore sz a.toNat v.toNat s b := by
  obtain ⟨hin, -⟩ := memWrite_eq_ok.mp h
  obtain ⟨m, hwrite, hm⟩ := memWrite_eq_byteAfterStore (sz := sz) (v := v) hin
  obtain rfl := (Res.ok.inj (h.symm.trans hwrite)).2
  exact ⟨hin, rfl, rfl, hm⟩

/-- A canonical memory is as it was when a word that was overwritten is restored. -/
theorem Memory.setWord_restore {m : Memory} (hm : m.wf) (i : Nat) (w : Word) :
    (m.setWord i w).setWord i (m.word i) = m := by
  refine Memory.ext_of_wf (Memory.setWord_wf (Memory.setWord_wf hm i w) i _) hm fun b => ?_
  rw [Memory.get_setWord, Memory.get_setWord]
  split
  · next hb => rw [Memory.extractLsb'_word _ _ _ (Nat.mod_lt b (by decide)), ← hb, Nat.div_add_mod]
  · rfl

/-! ## Runs -/

/-- A step does not read the outcome of the step before (60_exceptions.md R226). -/
theorem step_setOutcome (s : State) (o : StepOutcome) : step (s.setOutcome o) = step s := rfl

/-- A run goes on from a step that ends with Continue. -/
theorem runUntilStop_of_continue {s t : State} (h : reportOf (step s) = some (.continue, t))
    (k : Nat) : runUntilStop (k + 1) s = runUntilStop k t := by
  rw [runUntilStop, h]

/-- A run ends at a step that does not. -/
theorem runUntilStop_of_not_continue {s : State}
    (h : ∀ t, reportOf (step s) ≠ some (.continue, t)) (k : Nat) :
    runUntilStop (k + 1) s = reportOf (step s) := by
  rw [runUntilStop]
  split
  · next t hstep => exact absurd hstep (h t)
  · rfl

theorem runUntilStop_ended {k : Nat} {s t : State} {r : Report} (j : Nat)
    (h : runUntilStop k s = some (r, t)) :
    runUntilStop (k + j) s = some (r, t) ∧ r ≠ .continue := by
  induction k generalizing s with
  | zero => cases h
  | succ k ih =>
    rw [Nat.add_right_comm]
    by_cases hstep : ∃ u, reportOf (step s) = some (.continue, u)
    · obtain ⟨u, hstep⟩ := hstep
      rw [runUntilStop_of_continue hstep] at h ⊢
      exact ih h
    · have hother := not_exists.mp hstep
      rw [runUntilStop_of_not_continue hother] at h ⊢
      exact ⟨h, fun hr => hother t (hr ▸ h)⟩

/-! ## Breakpoints -/

/-- The state in which a step hits the breakpoint that was set at pc (60_exceptions.md R235). -/
def breakpointHit (s : State) : State :=
  (((setBreakpoint s.pc s).setOutcome .continue).setPc (s.pc + 4)).setOutcome .breakpoint

/-- With the word and pc restored, nothing but the outcome is left of the hit. -/
theorem clear_breakpointHit {s : State} (hmem : s.mem.wf) :
    (clearBreakpoint s.pc (s.mem.word (s.pc.toNat / 4)) (breakpointHit s)).setPc s.pc =
      s.setOutcome .breakpoint := by
  apply State.ext_reg
  case h1 =>
    intro r
    rw [State.setPc_eq, State.reg_setReg]
    split
    · next h => rw [h]; rfl
    · next h => exact State.reg_setReg_ne (setBreakpoint s.pc s) _ h
  case h3 => exact Memory.setWord_restore hmem _ _
  all_goals rfl

/-! ## The obligations -/

/-- Settles O40: the bytes that the store left at pc are those of the word. -/
theorem storeIsFetchedByTheNextStep : Obligations.StoreIsFetchedByTheNextStep := by
  intro a w s t i hwrite ha hpc hi
  obtain ⟨hin, hpct, hparams, hbytes⟩ := memWrite_leaves hwrite
  rw [hpc] at hpct
  obtain ⟨-, hruns⟩ := stepFetchesDecodesAndRuns t
  have hfetched :
      decode t.params.encoding (BitVec.ofNat 32 (memValue .b32 t.pc.toNat t)) = .ok i := by
    rw [hparams, hpct, memValue_of_word_stored ha hbytes, hi]
  rw [(hruns (by rw [hpct, hparams]; exact hin)).1 i hfetched, hpct, logAccess_of_aligned ha]

/-- Settles O41, by induction on the smaller budget. -/
theorem runEndDoesNotDependOnTheBudget : Obligations.RunEndDoesNotDependOnTheBudget :=
  fun _ j _ t _ h =>
    have hended := runUntilStop_ended j h
    ⟨hended.1, hended.2, step_setOutcome t⟩

/-- Settles O42: the BPT that the host stored is what the step fetches, and with the word restored
the outcome is the whole difference. -/
theorem breakpointHitIsTransparent : Obligations.BreakpointHitIsTransparent := by
  rintro s _ ⟨⟨-, he⟩, hmem, -⟩ rfl haligned hin
  have hhit : step (setBreakpoint s.pc s) = .next (breakpointHit s) :=
    storeIsFetchedByTheNextStep s.pc _ s _ .bpt (memWrite_word haligned hin) haligned rfl
      (decode_encode he rfl)
  have hundone := clear_breakpointHit hmem
  exact ⟨_, hhit, rfl, State.setPc_pc _ _, hundone, by rw [hundone, step_setOutcome]⟩

end Sys2Proof.Machine
end

section
/-! PROOFS. EMT (46_trap_halt.md R210): the obligation of the family. -/

namespace Sys2Proof.Machine

/-- Settles O35, by the two cases of the trap number. -/
theorem emtPrintsOrCallsTheTrapTable : Obligations.EmtPrintsOrCallsTheTrapTable := by
  intro d s
  refine ⟨encodeBt_spec_toNat .emt d, fun hd => ?putchar, fun hd => ?otherTrap⟩ <;>
    rw [show exec (.emt d) s = execEmt d s from rfl, execEmt]
  case putchar =>
    have hlow : (s.reg 0).extractLsb' 0 8 = BitVec.ofNat 8 ((s.reg 0).toNat % 256) := by
      apply BitVec.eq_of_toNat_eq
      rw [field_toNat, BitVec.toNat_ofNat, pow_zero, Nat.div_one,
        show 2 ^ 8 = 256 from rfl, Nat.mod_mod]
    rw [if_pos hd, hlow]
    rfl
  case otherTrap =>
    rw [if_neg hd]
    cases Config.trapTable d s <;> rfl

end Sys2Proof.Machine
end
